-- ==== Sys2Proof/Word.lean ====
section
/-! DEFINITION. The bit-vector types of VP100-FD: bytes, 16-bit fields, the FOLD16 accumulator (R13, R55, R124). -/

namespace Sys2Proof

/-- One byte of the stream or of the frame buffer (R13). -/
abbrev Byte := BitVec 8

/-- A 16-bit field of a frame (R52). -/
abbrev Word := BitVec 16

/-- The 32-bit accumulator of FOLD16 (R124). -/
abbrev Acc := BitVec 32

end Sys2Proof
end

