-- ==== Sys2Proof/Config.lean ====
section
/-! DEFINITION. The constant configuration of VP100-FD: the catalog `CAT` of R8 to R11 as plain data, and the two
functions the spec leaves open (`ROUND`, `FAULT_MAP`) as constants without a body. -/

namespace Sys2Proof

/-- The closed set of eight packet formats (R10, R190). -/
inductive FormatId where
  | normalNoQuality
  | normalQuality
  | ywQuality
  | fsTestQuality
  | t10Quality
  | errorFault
  | upBoardInfo
  | downBoardInfo
deriving DecidableEq, Repr

/-- The checksum algorithm of a format, field `CKS` (R10, R86). -/
inductive CksKind where
  | add8
  | fold16
  | crc8
  | crc8w
deriving DecidableEq, Repr

/-- The quality field of a point, field `QKIND` (R11, R84). -/
inductive QKind where
  | none
  | u8
  | u16
deriving DecidableEq, Repr

/-- What a format record of kind `PC` has in addition (R11). -/
structure PcLayout where
  /-- `LEN`, the constant total frame length. -/
  len        : Nat
  /-- `N`, the point count. -/
  n          : Nat
  /-- `P`, bytes per point. -/
  p          : Nat
  qkind      : QKind
  speedOff   : Nat
  firstOff   : Nat
  ptsOff     : Nat
  lastOff    : Nat
  /-- `U`, the angle unit divisor. -/
  u          : Nat
  bias       : Nat
  speedScale : Rat
  qScale     : Rat
deriving DecidableEq, Repr

/-- The `kind` of a format with the data of that kind: `INFO` formats take their length from the frame (R10, R11). -/
inductive FormatKind where
  | pc (layout : PcLayout)
  | info
deriving DecidableEq, Repr

/-- A format record (R10). Its `id` is its place in `Formats`. -/
structure FormatRecord where
  name : String
  cks  : CksKind
  kind : FormatKind
deriving DecidableEq, Repr

/-- `FORMATS`: a record for each of the format ids 0..7 (R8). -/
structure Formats where
  normalNoQuality : FormatRecord
  normalQuality   : FormatRecord
  ywQuality       : FormatRecord
  fsTestQuality   : FormatRecord
  t10Quality      : FormatRecord
  errorFault      : FormatRecord
  upBoardInfo     : FormatRecord
  downBoardInfo   : FormatRecord
deriving DecidableEq, Repr

/-- One entry of a `MODEL` family's map `ENTRIES`: a model-code byte pair and the format it selects (R9). -/
structure ModelEntry where
  m0  : Byte
  m1  : Byte
  fmt : FormatId
deriving DecidableEq, Repr

/-- How a family resolves the frame length, field `MODE` with the data of that mode (R9, R82, R83). -/
inductive Mode where
  | model (entries : List ModelEntry)
  | plen (fmt : FormatId) (overhead : Nat)
deriving DecidableEq, Repr

/-- A family record (R9). -/
structure Family where
  name   : String
  sync0  : Byte
  sync1  : Byte
  hdrLen : Nat
  mode   : Mode
deriving DecidableEq, Repr

/-- `ROUND` as plain data: the identity of `CAT_DEFAULT`, or the `k`-th rounding function of an implementation,
which is open (R8, R231). -/
inductive Rounding where
  | identity
  | implementation (k : Nat)
deriving DecidableEq, Repr

/-- The catalog `CAT` (R8). `FAULT_MAP` is out of the block and stands below as a constant of its own.
`cmdSync0`, `cmdSync1` are the sync pair of the outbound command frame (R199, D33). -/
structure Catalog where
  bufSize     : Nat
  families    : List Family
  formats     : Formats
  crc8Table   : List Byte
  crc8Init    : Byte
  crc8Residue : Byte
  round       : Rounding
  cmdSync0    : Byte
  cmdSync1    : Byte
deriving DecidableEq, Repr

/-- The record of an `INFO_OUT` event (R236). -/
structure InfoRecord where
  fmt        : FormatId
  cmd        : Byte
  payloadLen : Byte
  payload    : List Byte
deriving DecidableEq, Repr

/-- The four codes a device fault may have (R5 (d), R237). -/
inductive ErrorCode where
  | normal
  | reset
  | motorLock
  | upBoardNoData
deriving DecidableEq, Repr, Inhabited

/-- The rounding functions an implementation may apply to a rational output; of each it may be assumed only that it is
a function of the exact value (R231, U7). No body: nothing can be proved of its values (log 7). -/
opaque Config.round : Nat → Rat → Rat

/-- `FAULT_MAP`, outside the block and open: which error code an info record means (R8, R237, D25; log 8). No step
reads it. -/
opaque Config.faultMap : InfoRecord → ErrorCode

end Sys2Proof
end

