-- ==== Sys2Proof/Machine/Catalog.lean ====
section
/-! DEFINITION. What the rules ask of a catalog: the derived sets FIRST and PAIRS (R17), the length resolution (R87, R88),
and the spec's own instance `CAT_DEFAULT` (R100 to R108). -/

namespace Sys2Proof

/-- The number of a format id (R10). -/
def FormatId.id : FormatId → Nat
  | .normalNoQuality => 0
  | .normalQuality => 1
  | .ywQuality => 2
  | .fsTestQuality => 3
  | .t10Quality => 4
  | .errorFault => 5
  | .upBoardInfo => 6
  | .downBoardInfo => 7

/-- The eight format ids in the order of R10. -/
def FormatId.all : List FormatId :=
  [.normalNoQuality, .normalQuality, .ywQuality, .fsTestQuality, .t10Quality, .errorFault, .upBoardInfo, .downBoardInfo]

/-- The width `w` of the checksum field: 2 for FOLD16, else 1 (R80, R86). -/
def CksKind.width : CksKind → Nat
  | .fold16 => 2
  | _ => 1

/-- `CAT.FORMATS[fmt]` (R8). -/
def Catalog.format (cat : Catalog) : FormatId → FormatRecord
  | .normalNoQuality => cat.formats.normalNoQuality
  | .normalQuality => cat.formats.normalQuality
  | .ywQuality => cat.formats.ywQuality
  | .fsTestQuality => cat.formats.fsTestQuality
  | .t10Quality => cat.formats.t10Quality
  | .errorFault => cat.formats.errorFault
  | .upBoardInfo => cat.formats.upBoardInfo
  | .downBoardInfo => cat.formats.downBoardInfo

/-- `b in FIRST` (R17). -/
def Catalog.inFirst (cat : Catalog) (b : Byte) : Bool :=
  cat.families.any fun F => F.sync0 == b

/-- The first family of a list with the sync pair `(a, b)`, with its index counted from `i`. -/
def findFamily (a b : Byte) : Nat → List Family → Option (Nat × Family)
  | _, [] => none
  | i, F :: Fs => if F.sync0 = a ∧ F.sync1 = b then some (i, F) else findFamily a b (i + 1) Fs

/-- `family_of(a, b)`, defined exactly when `(a, b)` is in PAIRS (R17): the index and the record. -/
def Catalog.familyOf (cat : Catalog) (a b : Byte) : Option (Nat × Family) :=
  findFamily a b 0 cat.families

/-- `ENTRIES[(m0, m1)]` (R9). -/
def lookupModel (m0 m1 : Byte) : List ModelEntry → Option FormatId
  | [] => none
  | e :: es => if e.m0 = m0 ∧ e.m1 = m1 then some e.fmt else lookupModel m0 m1 es

/-- What a complete header resolves to. -/
inductive Resolution where
  /-- The model code is not in the family's `ENTRIES` (R93). -/
  | unknownModel
  /-- The model code selects a format without a constant length; an ill-formed catalog only (R12, W3). -/
  | noLength
  /-- The format and the total length. -/
  | format (fmt : FormatId) (len : Nat)
deriving DecidableEq, Repr

/-- The length resolution of a complete header whose last two bytes are `m0`, `m1` (R87, R88, R157, R158). -/
def Catalog.resolve (cat : Catalog) (F : Family) (m0 m1 : Byte) : Resolution :=
  match F.mode with
  | .model entries =>
    match lookupModel m0 m1 entries with
    | none => .unknownModel
    | some fid =>
      match (cat.format fid).kind with
      | .pc d => .format fid d.len
      | .info => .noLength
  | .plen fid overhead => .format fid (m1.toNat + overhead)

/-- The range check of a resolved length, `H < len <= BUF_SIZE` (R159). -/
def Catalog.lengthOk (cat : Catalog) (F : Family) (len : Nat) : Bool :=
  F.hdrLen < len && len ≤ cat.bufSize

/-! ## CAT_DEFAULT -/

/-- `CAT_DEFAULT.CRC8_TABLE`, row by row (R133). -/
def crc8TableDefault : List Byte :=
  [0x00, 0x4D, 0x9A, 0xD7, 0x79, 0x34, 0xE3, 0xAE, 0xF2, 0xBF, 0x68, 0x25, 0x8B, 0xC6, 0x11, 0x5C] ++
  [0xA9, 0xE4, 0x33, 0x7E, 0xD0, 0x9D, 0x4A, 0x07, 0x5B, 0x16, 0xC1, 0x8C, 0x22, 0x6F, 0xB8, 0xF5] ++
  [0x1F, 0x52, 0x85, 0xC8, 0x66, 0x2B, 0xFC, 0xB1, 0xED, 0xA0, 0x77, 0x3A, 0x94, 0xD9, 0x0E, 0x43] ++
  [0xB6, 0xFB, 0x2C, 0x61, 0xCF, 0x82, 0x55, 0x18, 0x44, 0x09, 0xDE, 0x93, 0x3D, 0x70, 0xA7, 0xEA] ++
  [0x3E, 0x73, 0xA4, 0xE9, 0x47, 0x0A, 0xDD, 0x90, 0xCC, 0x81, 0x56, 0x1B, 0xB5, 0xF8, 0x2F, 0x62] ++
  [0x97, 0xDA, 0x0D, 0x40, 0xEE, 0xA3, 0x74, 0x39, 0x65, 0x28, 0xFF, 0xB2, 0x1C, 0x51, 0x86, 0xCB] ++
  [0x21, 0x6C, 0xBB, 0xF6, 0x58, 0x15, 0xC2, 0x8F, 0xD3, 0x9E, 0x49, 0x04, 0xAA, 0xE7, 0x30, 0x7D] ++
  [0x88, 0xC5, 0x12, 0x5F, 0xF1, 0xBC, 0x6B, 0x26, 0x7A, 0x37, 0xE0, 0xAD, 0x03, 0x4E, 0x99, 0xD4] ++
  [0x7C, 0x31, 0xE6, 0xAB, 0x05, 0x48, 0x9F, 0xD2, 0x8E, 0xC3, 0x14, 0x59, 0xF7, 0xBA, 0x6D, 0x20] ++
  [0xD5, 0x98, 0x4F, 0x02, 0xAC, 0xE1, 0x36, 0x7B, 0x27, 0x6A, 0xBD, 0xF0, 0x5E, 0x13, 0xC4, 0x89] ++
  [0x63, 0x2E, 0xF9, 0xB4, 0x1A, 0x57, 0x80, 0xCD, 0x91, 0xDC, 0x0B, 0x46, 0xE8, 0xA5, 0x72, 0x3F] ++
  [0xCA, 0x87, 0x50, 0x1D, 0xB3, 0xFE, 0x29, 0x64, 0x38, 0x75, 0xA2, 0xEF, 0x41, 0x0C, 0xDB, 0x96] ++
  [0x42, 0x0F, 0xD8, 0x95, 0x3B, 0x76, 0xA1, 0xEC, 0xB0, 0xFD, 0x2A, 0x67, 0xC9, 0x84, 0x53, 0x1E] ++
  [0xEB, 0xA6, 0x71, 0x3C, 0x92, 0xDF, 0x08, 0x45, 0x19, 0x54, 0x83, 0xCE, 0x60, 0x2D, 0xFA, 0xB7] ++
  [0x5D, 0x10, 0xC7, 0x8A, 0x24, 0x69, 0xBE, 0xF3, 0xAF, 0xE2, 0x35, 0x78, 0xD6, 0x9B, 0x4C, 0x01] ++
  [0xF4, 0xB9, 0x6E, 0x23, 0x8D, 0xC0, 0x17, 0x5A, 0x06, 0x4B, 0x9C, 0xD1, 0x7F, 0x32, 0xE5, 0xA8]

/-- The families of `CAT_DEFAULT`, in list order PC, UP, DN, FAULT (R101). -/
def familiesDefault : List Family :=
  [ { name := "PC", sync0 := 0x55, sync1 := 0xAA, hdrLen := 4,
      mode := .model
        [ ⟨0x01, 0x08, .normalNoQuality⟩, ⟨0x03, 0x08, .normalQuality⟩, ⟨0x04, 0x08, .ywQuality⟩,
          ⟨0x05, 0x08, .fsTestQuality⟩, ⟨0x06, 0x0C, .t10Quality⟩ ] },
    { name := "UP", sync0 := 0xA5, sync1 := 0x5A, hdrLen := 4, mode := .plen .upBoardInfo 5 },
    { name := "DN", sync0 := 0x5A, sync1 := 0xA5, hdrLen := 4, mode := .plen .downBoardInfo 5 },
    { name := "FAULT", sync0 := 0xA5, sync1 := 0xEE, hdrLen := 4, mode := .plen .errorFault 5 } ]

/-- The eight format records of `CAT_DEFAULT` (R102 to R107). -/
def formatsDefault : Formats where
  normalNoQuality :=
    { name := "NormalNoQuality", cks := .fold16,
      kind := .pc { len := 28, n := 8, p := 2, qkind := .none, speedOff := 4, firstOff := 6, ptsOff := 8, lastOff := 24,
                    u := 64, bias := 0xA000, speedScale := 1 / 64, qScale := 0 } }
  normalQuality :=
    { name := "NormalQuality", cks := .fold16,
      kind := .pc { len := 36, n := 8, p := 3, qkind := .u8, speedOff := 4, firstOff := 6, ptsOff := 8, lastOff := 32,
                    u := 64, bias := 0xA000, speedScale := 1 / 64, qScale := 1 } }
  ywQuality :=
    { name := "YwQuality", cks := .fold16,
      kind := .pc { len := 36, n := 8, p := 3, qkind := .u8, speedOff := 4, firstOff := 6, ptsOff := 8, lastOff := 32,
                    u := 64, bias := 0xA000, speedScale := 1 / 64, qScale := 1 / 48 } }
  fsTestQuality :=
    { name := "FsTestQuality", cks := .crc8,
      kind := .pc { len := 43, n := 8, p := 4, qkind := .u16, speedOff := 4, firstOff := 6, ptsOff := 8, lastOff := 40,
                    u := 64, bias := 0xA000, speedScale := 1 / 64, qScale := 1 } }
  t10Quality :=
    { name := "T10Quality", cks := .crc8w,
      kind := .pc { len := 47, n := 12, p := 3, qkind := .u8, speedOff := 4, firstOff := 6, ptsOff := 8, lastOff := 44,
                    u := 100, bias := 0xA000, speedScale := 1 / 6, qScale := 1 } }
  errorFault := { name := "ErrorFault", cks := .add8, kind := .info }
  upBoardInfo := { name := "UpBoardInfo", cks := .add8, kind := .info }
  downBoardInfo := { name := "DownBoardInfo", cks := .add8, kind := .info }

/-- `CAT_DEFAULT`, this spec's own catalog instance, not claimed to be the device's (R7, R100); the command sync pair is
that of R199. -/
def catDefault : Catalog where
  bufSize := 512
  families := familiesDefault
  formats := formatsDefault
  crc8Table := crc8TableDefault
  crc8Init := 0x00
  crc8Residue := 0x00
  round := .identity
  cmdSync0 := 0xA5
  cmdSync1 := 0x5A

end Sys2Proof
end

