-- ==== Sys2Proof/Machine/Checksum.lean ====
section
/-! DEFINITION. The checksum engine's pure functions (R120 to R135): ADD8, FOLD16, CRC8, the outbound command frame's
sealing and sealing in general. The validators, which may stop, stand in Machine/Flags.lean. -/

namespace Sys2Proof

/-- The loop of ADD8 from a partial sum (R121). -/
def add8From : Byte → List Byte → Byte
  | s, [] => s
  | s, b :: bs => add8From (s + b) bs

/-- `ADD8(bs)` (R121). -/
def add8 (bs : List Byte) : Byte := add8From 0 bs

/-- The little-endian 16-bit word of two bytes (R52, R124). -/
def le16 (lo hi : Byte) : Word := lo.setWidth 16 ||| (hi.setWidth 16 <<< 8)

/-- The loop of FOLD16 from an accumulator; none where a byte is left over (R124, U3). -/
def fold16From : Acc → List Byte → Option Acc
  | t, [] => some t
  | _, [_] => none
  | t, lo :: hi :: bs => fold16From ((t <<< 1) + (le16 lo hi).setWidth 32) bs

/-- The final fold of FOLD16's accumulator (R124). -/
def fold16Final (t : Acc) : Word :=
  (((t &&& 0x7FFF) + (t >>> 15)) &&& 0x7FFF).setWidth 16

/-- `FOLD16(bs)` for an even number of bytes (R124); none for an odd number, which no rule defines (U3, D12). -/
def fold16 (bs : List Byte) : Option Word := (fold16From 0 bs).map fold16Final

/-- The loop of CRC8 from a register value; none where the table has no such entry (R128). -/
def crc8From (table : List Byte) : Byte → List Byte → Option Byte
  | c, [] => some c
  | c, b :: bs =>
    match table[(c ^^^ b).toNat]? with
    | none => none
    | some c' => crc8From table c' bs

/-- `CRC8(bs)` with the catalog's table and initial value (R128). -/
def crc8 (cat : Catalog) (bs : List Byte) : Option Byte := crc8From cat.crc8Table cat.crc8Init bs

/-- One of the eight rounds that make a table entry of polynomial `poly`, most significant bit first (R134). -/
def crc8Round (poly c : Byte) : Byte := if c.msb then (c <<< 1) ^^^ poly else c <<< 1

/-- The table entry `T[i]` of polynomial `poly` (R134). -/
def crc8Entry (poly i : Byte) : Byte :=
  crc8Round poly (crc8Round poly (crc8Round poly (crc8Round poly
    (crc8Round poly (crc8Round poly (crc8Round poly (crc8Round poly i)))))))

/-- The checksum field that seals the first `L-w` bytes `g` of a frame (R135). -/
def sealField (cat : Catalog) (kind : CksKind) (g : List Byte) : Option (List Byte) :=
  match kind with
  | .add8 => some [add8 g]
  | .fold16 => (fold16 g).map fun (r : Word) => [r.setWidth 8, (r >>> 8).setWidth 8]
  | .crc8 => (crc8 cat g).map fun c => [c]
  | .crc8w => (crc8 cat g).map fun c => [c]

/-- `CMDFRAME(cmd, payload)`: `[sync_hi, sync_lo, cmd, payload_len, payload…, checksum]` with ADD8 over all preceding
bytes (R112, R199). DESIGN CHOICE (log 25): above 255 payload bytes the length byte is the length modulo 256; the meaning of
CMD refuses there (log 12). -/
def commandFrame (cat : Catalog) (code : Byte) (payload : List Byte) : List Byte :=
  let g := cat.cmdSync0 :: cat.cmdSync1 :: code :: BitVec.ofNat 8 payload.length :: payload
  g ++ [add8 g]

end Sys2Proof
end

