-- ==== Sys2Proof/Syntax.lean ====
section
/-! DEFINITION. The syntax of what has an encoding in VP100-FD (R3 (c)): one constructor per row of the opcode table,
the eight frame formats the block receives and the outbound command frame. -/

namespace Sys2Proof

/-- A frame in the parts of R80: the sync pair, the rest of the header `f[2..HDR_LEN-1]`, the body
`f[HDR_LEN..L-1-w]` and the checksum field `f[L-w..L-1]`. -/
structure Frame where
  sync0  : Byte
  sync1  : Byte
  header : List Byte
  body   : List Byte
  cks    : List Byte
deriving DecidableEq, Repr

/-- The frame formats (opcode_table.json). The operand of an inbound format is a complete frame candidate whose checksum
has not been tested yet; the operands of `cmd` are those of `SendCommand(cmd, payload)`. -/
inductive Instr where
  /-- R191. -/
  | normalNoQuality (f : Frame)
  /-- R192. -/
  | normalQuality (f : Frame)
  /-- R193. -/
  | ywQuality (f : Frame)
  /-- R194. -/
  | fsTestQuality (f : Frame)
  /-- R195. -/
  | t10Quality (f : Frame)
  /-- R196. -/
  | errorFault (f : Frame)
  /-- R197. -/
  | upBoardInfo (f : Frame)
  /-- R198. -/
  | downBoardInfo (f : Frame)
  /-- R199. -/
  | cmd (code : Byte) (payload : List Byte)
deriving DecidableEq, Repr

end Sys2Proof
end

