-- ==== Sys2Proof/Machine/Frames.lean ====
section
/-! DEFINITION. A frame as bytes and as its four parts (R80), and the constructor of Instr each format id stands for. -/

namespace Sys2Proof

/-- The bytes `f[0..L-1]` of a frame in wire order (R16, R80). -/
def Frame.bytes (f : Frame) : List Byte :=
  f.sync0 :: f.sync1 :: (f.header ++ f.body ++ f.cks)

/-- `HDR_LEN` of a frame: how many bytes stand before its body (R80). -/
def Frame.hdrLen (f : Frame) : Nat := f.header.length + 2

/-- The four parts of the bytes of a frame with header length `h` and checksum width `w` (R80); none where they are too
few to hold a header of that length and the checksum field after it. -/
def splitFrame (h w : Nat) : List Byte → Option Frame
  | a :: b :: rest =>
    if 2 ≤ h ∧ h + w ≤ rest.length + 2 then
      let n := rest.length - w
      some { sync0 := a, sync1 := b, header := rest.take (h - 2),
             body := (rest.take n).drop (h - 2), cks := rest.drop n }
    else none
  | _ => none

/-- The four parts of a frame of format `fid`; the header length is that of the family its sync pair selects. -/
def Catalog.split (cat : Catalog) (fid : FormatId) : List Byte → Option Frame
  | a :: b :: rest =>
    match cat.familyOf a b with
    | none => none
    | some (_, F) => splitFrame F.hdrLen (cat.format fid).cks.width (a :: b :: rest)
  | _ => none

/-- The instruction of a frame of format `fid` (R190). -/
def Instr.ofFormat : FormatId → Frame → Instr
  | .normalNoQuality => .normalNoQuality
  | .normalQuality => .normalQuality
  | .ywQuality => .ywQuality
  | .fsTestQuality => .fsTestQuality
  | .t10Quality => .t10Quality
  | .errorFault => .errorFault
  | .upBoardInfo => .upBoardInfo
  | .downBoardInfo => .downBoardInfo

/-- The format and the frame of an inbound instruction; none for the outbound command frame. -/
def Instr.inbound : Instr → Option (FormatId × Frame)
  | .normalNoQuality f => some (.normalNoQuality, f)
  | .normalQuality f => some (.normalQuality, f)
  | .ywQuality f => some (.ywQuality, f)
  | .fsTestQuality f => some (.fsTestQuality, f)
  | .t10Quality f => some (.t10Quality, f)
  | .errorFault f => some (.errorFault, f)
  | .upBoardInfo f => some (.upBoardInfo, f)
  | .downBoardInfo f => some (.downBoardInfo, f)
  | .cmd _ _ => none

end Sys2Proof
end

