-- ==== Sys2Proof/WellFormed.lean ====
section
/-! DEFINITION. Well-formedness: of a catalog (R12, clauses W1 to W7), and of an instruction as the encoding admits it
(R80 to R83, R199). -/

namespace Sys2Proof

/-- The sync pairs of a family list, in order. -/
def familyPairs (Fs : List Family) : List (Byte × Byte) := Fs.map fun F => (F.sync0, F.sync1)

/-- W1: FAMILIES is not empty and no two families have the same sync pair. -/
def Catalog.pairsOk (cat : Catalog) : Bool :=
  !cat.families.isEmpty && decide (familyPairs cat.families).Nodup

/-- W2: the header holds the sync pair and the model code, or the sync pair and the payload length. -/
def Family.headerOk (F : Family) : Bool :=
  match F.mode with
  | .model _ => decide (4 ≤ F.hdrLen)
  | .plen _ _ => decide (3 ≤ F.hdrLen)

/-- W3, W4 and the `HDR_LEN` half of W6 for one entry of a MODEL family. -/
def Catalog.entryOk (cat : Catalog) (F : Family) (e : ModelEntry) : Bool :=
  match (cat.format e.fmt).kind with
  | .info => false
  | .pc d =>
    decide (F.hdrLen < d.len) && decide (d.len ≤ cat.bufSize) &&
    decide (F.hdrLen ≤ d.speedOff + 1) && decide (F.hdrLen ≤ d.firstOff + 1) && decide (F.hdrLen ≤ d.lastOff + 1) &&
    decide (F.hdrLen + 1 ≤ d.ptsOff + d.n * d.p)

/-- W3, W4 for one family; `ENTRIES` is a map, so no model code stands in it twice (log 9). -/
def Catalog.familyOk (cat : Catalog) (F : Family) : Bool :=
  match F.mode with
  | .model entries =>
    decide (entries.map fun e => (e.m0, e.m1)).Nodup && entries.all (cat.entryOk F)
  | .plen fid overhead =>
    decide ((cat.format fid).kind = .info) && decide (F.hdrLen < overhead) && decide (255 + overhead ≤ cat.bufSize)

/-- The least size of a point with its quality field (W6). -/
def QKind.minPoint : QKind → Nat
  | .none => 2
  | .u8 => 3
  | .u16 => 4

/-- W5 and the length half of W6 for one format record. -/
def FormatRecord.ok (r : FormatRecord) : Bool :=
  match r.kind with
  | .info => decide (r.cks ≠ .fold16)
  | .pc d =>
    (decide (r.cks ≠ .fold16) || decide (d.len % 2 = 0)) &&
    decide (d.speedOff + 1 + r.cks.width < d.len) && decide (d.firstOff + 1 + r.cks.width < d.len) &&
    decide (d.lastOff + 1 + r.cks.width < d.len) && decide (d.ptsOff + d.n * d.p + r.cks.width ≤ d.len) &&
    decide (d.qkind.minPoint ≤ d.p) && decide (0 < d.u)

/-- W7: the CRC-8 table has exactly 256 entries. -/
def Catalog.tableOk (cat : Catalog) : Bool := decide (cat.crc8Table.length = 256)

/-- A well-formed catalog: W1 to W7 (R12), in the reading of log 9. -/
def Catalog.wf (cat : Catalog) : Bool :=
  cat.pairsOk && cat.families.all Family.headerOk && cat.families.all cat.familyOk &&
  FormatId.all.all (fun fid => (cat.format fid).ok) && cat.tableOk

/-- A frame of format `fid` as the encoding admits it: its pair is a family's, its header has the family's length and
resolves to `fid` and to the frame's own length, which is in range, and its checksum field has the format's width
(R80 to R83, R87, R88, R159). -/
def Frame.wf (cat : Catalog) (fid : FormatId) (f : Frame) : Bool :=
  match cat.familyOf f.sync0 f.sync1 with
  | none => false
  | some (_, F) =>
    decide (f.hdrLen = F.hdrLen) && decide (f.cks.length = (cat.format fid).cks.width) &&
    cat.lengthOk F f.bytes.length &&
    match f.bytes[F.hdrLen - 2]?, f.bytes[F.hdrLen - 1]? with
    | some m0, some m1 => decide (cat.resolve F m0 m1 = .format fid f.bytes.length)
    | _, _ => false

/-- A command payload is counted by one byte (R199). -/
def payloadOk (payload : List Byte) : Bool := decide (payload.length ≤ 255)

/-- A well-formed instruction under a catalog. -/
def Instr.wf (cat : Catalog) : Instr → Bool
  | .normalNoQuality f => f.wf cat .normalNoQuality
  | .normalQuality f => f.wf cat .normalQuality
  | .ywQuality f => f.wf cat .ywQuality
  | .fsTestQuality f => f.wf cat .fsTestQuality
  | .t10Quality f => f.wf cat .t10Quality
  | .errorFault f => f.wf cat .errorFault
  | .upBoardInfo f => f.wf cat .upBoardInfo
  | .downBoardInfo f => f.wf cat .downBoardInfo
  | .cmd _ payload => payloadOk payload

end Sys2Proof
end

