-- ==== Sys2Proof/Decode.lean ====
section
/-! DEFINITION. Identifying a frame from its bytes (R90), the encoder, the outbound command frame read back, and the frame
builders of R111. -/

namespace Sys2Proof

/-- Why bytes are no frame. -/
inductive DecodeError where
  /-- The bytes end before the frame does; safe: nothing is decoded. -/
  | truncated
  /-- The first byte is not in FIRST (R91). -/
  | notFirst
  /-- The first two bytes are no pair of PAIRS (R92). -/
  | notPair
  /-- The model code is not in the family's ENTRIES (R93). -/
  | unknownModel
  /-- The resolved length is out of range (R159) or too short for header and checksum (R80); ill-formed catalogs only. -/
  | badLength
  /-- The model code selects a format without a constant length; ill-formed catalogs only (W3). -/
  | noLength
deriving DecidableEq, Repr

/-- The third look of R90: with the family known, the format and the length from the header's last two bytes, then the
frame itself and what follows it. -/
def decodeIn (cat : Catalog) (F : Family) (bs : List Byte) : Except DecodeError (Instr × List Byte) :=
  match bs[F.hdrLen - 2]?, bs[F.hdrLen - 1]? with
  | some m0, some m1 =>
    match cat.resolve F m0 m1 with
    | .unknownModel => .error .unknownModel
    | .noLength => .error .noLength
    | .format fid len =>
      if cat.lengthOk F len then
        if len ≤ bs.length then
          match splitFrame F.hdrLen (cat.format fid).cks.width (bs.take len) with
          | some f => .ok (.ofFormat fid f, bs.drop len)
          | none => .error .badLength
        else .error .truncated
      else .error .badLength
  | _, _ => .error .truncated

/-- The frame at the head of a byte sequence and the bytes after it (R90). -/
def decode (cat : Catalog) : List Byte → Except DecodeError (Instr × List Byte)
  | [] => .error .truncated
  | [a] => if cat.inFirst a then .error .truncated else .error .notFirst
  | a :: b :: rest =>
    if cat.inFirst a then
      match cat.familyOf a b with
      | none => .error .notPair
      | some (_, F) => decodeIn cat F (a :: b :: rest)
    else .error .notFirst

/-- The bytes of an instruction in wire order (R80, R199). -/
def encode (cat : Catalog) : Instr → List Byte
  | .normalNoQuality f => f.bytes
  | .normalQuality f => f.bytes
  | .ywQuality f => f.bytes
  | .fsTestQuality f => f.bytes
  | .t10Quality f => f.bytes
  | .errorFault f => f.bytes
  | .upBoardInfo f => f.bytes
  | .downBoardInfo f => f.bytes
  | .cmd code payload => commandFrame cat code payload

/-- The command frame at the head of an OUTBOUND byte sequence, sealed by its ADD8 (R199). The framing machine has no
entry for it (R90): inbound bytes are read by `decode` only (log 13). -/
def decodeCommand (cat : Catalog) : List Byte → Option (Instr × List Byte)
  | a :: b :: code :: n :: rest =>
    let payload := rest.take n.toNat
    if a = cat.cmdSync0 ∧ b = cat.cmdSync1 ∧ n.toNat < rest.length ∧
        rest[n.toNat]? = some (add8 (a :: b :: code :: n :: payload)) then
      some (.cmd code payload, rest.drop (n.toNat + 1))
    else none
  | _ => none

/-! ## Builders (R111) -/

/-- A 16-bit field in wire order (R51). -/
def wordBytes (w : Word) : List Byte := [w.setWidth 8, (w >>> 8).setWidth 8]

/-- One point in wire order: the distance, then the quality as `QKIND` has it (R84, R111). -/
def pointBytes (q : QKind) (pt : Word × Word) : List Byte :=
  wordBytes pt.1 ++
    match q with
    | .none => []
    | .u8 => [pt.2.setWidth 8]
    | .u16 => wordBytes pt.2

/-- The first model code that selects `fid` in a MODEL family, with the family (R9). -/
def modelCodeOf (fid : FormatId) : List Family → Option (Family × ModelEntry)
  | [] => none
  | F :: Fs =>
    match F.mode with
    | .model entries =>
      match entries.find? (fun e => e.fmt == fid) with
      | some e => some (F, e)
      | none => modelCodeOf fid Fs
    | .plen _ _ => modelCodeOf fid Fs

/-- `PCFRAME(fmt, speed, raw_first, points, raw_last)` before its checksum field (R111). -/
def pcFrameBody (F : Family) (e : ModelEntry) (q : QKind) (speed rawFirst : Word) (pts : List (Word × Word))
    (rawLast : Word) : List Byte :=
  [F.sync0, F.sync1, e.m0, e.m1] ++ wordBytes speed ++ wordBytes rawFirst ++ pts.flatMap (pointBytes q) ++
    wordBytes rawLast

/-- `PCFRAME(fmt, speed, raw_first, points, raw_last)` (R111); none where the catalog has no such point-cloud frame.
DESIGN CHOICE (log 26): where R111 gives no expansion (a point count other than N, a `u8` quality above 255, `HDR_LEN`
above 4, spare point bytes) the result is the literal expansion, the quality cut to its field, and no well-formed frame. -/
def pcFrame (cat : Catalog) (fid : FormatId) (speed rawFirst : Word) (pts : List (Word × Word)) (rawLast : Word) :
    Option (List Byte) :=
  match (cat.format fid).kind, modelCodeOf fid cat.families with
  | .pc d, some (F, e) =>
    let g := pcFrameBody F e d.qkind speed rawFirst pts rawLast
    (sealField cat (cat.format fid).cks g).map (g ++ ·)
  | _, _ => none

/-- `INFOFRAME(family, cmd, payload)` (R111). DESIGN CHOICE (log 25): for a payload of more than 255 bytes, for which R111
gives no expansion, the length byte is the length modulo 256 and the bytes are no well-formed frame. -/
def infoFrame (F : Family) (code : Byte) (payload : List Byte) : List Byte :=
  let g := F.sync0 :: F.sync1 :: code :: BitVec.ofNat 8 payload.length :: payload
  g ++ [add8 g]

/-! ## The opcode table's numbering (R90) -/

/-- The first `n` bytes of a number, byte 0 the least significant. -/
def bytesOfNat : Nat → Nat → List Byte
  | 0, _ => []
  | n + 1, w => BitVec.ofNat 8 w :: bytesOfNat n (w / 256)

/-- The `nbits` given bits of a row in wire order. -/
def rowBytes (nbits w : Nat) : List Byte := bytesOfNat (nbits / 8) (w % 2 ^ nbits)

/-- The bytes of a row followed by zeros up to the length its header resolves to, the header's missing bytes zero too
(R96). -/
def padRow (cat : Catalog) (bs : List Byte) : List Byte :=
  match bs with
  | a :: b :: _ =>
    match cat.familyOf a b with
    | none => bs
    | some (_, F) =>
      let h := bs ++ List.replicate F.hdrLen 0
      match h[F.hdrLen - 2]?, h[F.hdrLen - 1]? with
      | some m0, some m1 =>
        match cat.resolve F m0 m1 with
        | .format _ len => bs ++ List.replicate (len - bs.length) 0
        | _ => bs
      | _, _ => bs
  | _ => bs

/-- The instruction the decoder reads from a row of the opcode table under `CAT_DEFAULT`, every bit above `nbits` zero. -/
def decodeTableWord (nbits w : Nat) : Option Instr :=
  match decode catDefault (padRow catDefault (rowBytes nbits w)) with
  | .ok (i, _) => some i
  | .error _ => none

end Sys2Proof
end

