-- ==== Sys2Proof/Machine/State.lean ====
section
/-! DEFINITION. The state of one VP100-FD instance (R21, R39), its output events (R38), the ghost labels (R251), and the
reasons the model stops. -/

namespace Sys2Proof.Machine

/-- The framing state `st` (R22). `complete` is transient and never stored between steps. -/
inductive FramingState where
  | sync0
  | sync1
  | header
  | accum
  | complete
deriving DecidableEq, Repr

/-- The causes of a silent discard (R251). -/
inductive Cause where
  | dropSync1
  | dropModel
  | dropLen
  | dropCksum
deriving DecidableEq, Repr

/-- The ghost labels (R251). -/
inductive Label where
  | sync0Skip
  | sync0Hit
  | sync1Hit
  | headerMore
  | headerDone
  | accumMore
  | emit
  | drop (cause : Cause)
deriving DecidableEq, Repr

/-- One decoded point (R220). -/
structure Point where
  index      : Nat
  angleDeg   : Rat
  distRaw    : Word
  distanceMm : Nat
  qualityRaw : Word
  quality    : Rat
  speedRpm   : Rat
  isWrap     : Bool
deriving DecidableEq, Repr

/-- A point batch (R220). -/
structure Batch where
  fmt         : FormatId
  speedRaw    : Word
  speedRpm    : Rat
  firstAngle  : Int
  lastAngle   : Int
  angleDiffer : Rat
  points      : List Point
deriving DecidableEq, Repr

/-- The output events (R38). -/
inductive Event where
  | frameOut (fmt : FormatId) (bytes : List Byte)
  | pointsOut (batch : Batch)
  | infoOut (record : InfoRecord)
deriving DecidableEq, Repr

/-- What the environment issues: the block's two input operations (R35), and the software's `SendCommand`, which is not
an operation of the block (R199, R271; log 12). -/
inductive Op where
  | reset
  | feedByte (b : Byte)
  | sendCommand (code : Byte) (payload : List Byte)
deriving DecidableEq, Repr

/-- Why the model faults. All are safe: no rule gives a value there, and none is reachable from a good state: one that
meets the invariant of R27, with a well-formed catalog whose headers fit in the buffer (R56, R257; log 9). -/
inductive Fault where
  /-- The framing machine reads the buffer at or above `cnt` (R24, R56). Raised by SYNC1, HEADER, COMPLETE. Safe. -/
  | readPastCount
  /-- The buffer is written at or above `BUF_SIZE`, an address it does not have (R50, R257 (a)). Raised by the appends;
  with a well-formed catalog only in a MODEL family with empty ENTRIES and `HDR_LEN > BUF_SIZE` (log 9). Safe. -/
  | bufferOverflow
  /-- A checksum function or a handler reads past its frame, or the frame is too short for its header and its checksum
  field (R56, R80, R257 (b)). Raised by COMPLETE. Safe. -/
  | readPastFrame
  /-- CRC8 looks up an entry its table does not have (W7). Raised by COMPLETE. Safe. -/
  | noTableEntry
  /-- `fam` is no index of FAMILIES, or a frame's pair is no family's (R25, W1). Raised by HEADER, COMPLETE. Safe. -/
  | noFamily
  /-- A model code selects a format without a constant length (W3). Raised by HEADER. Safe. -/
  | noConstantLength
  /-- A step begins in the transient state COMPLETE (R22, R152). Raised by FEED_BYTE. Safe. -/
  | storedComplete
deriving DecidableEq, Repr

/-- Why the model refuses. -/
inductive Refusal where
  /-- An instruction without a meaning, rejected by name in exec. Safe. No arm of this model answers it. -/
  | notModelled (mnemonic : String)
  /-- The catalog is not well-formed (R12, U2). Raised by step before any operation. Safe. -/
  | illFormedCatalog
  /-- FOLD16 over an odd number of bytes (U3, D12). Raised by COMPLETE; not with a well-formed catalog. Safe. -/
  | foldOddLength
  /-- A command payload longer than its one length byte can say (R199). Raised by CMD. Safe. -/
  | payloadTooLong
deriving DecidableEq, Repr

/-- One instance of the block with its environment (R21, R37, R40). The block's own state is the tuple
`(st, cnt, buf, fam, fmt, len)`; `cat` is its constant parameter; `out` its output trace. -/
structure State where
  /-- The catalog, a parameter no step changes (R30, R34, R284; log 1). -/
  cat      : Catalog
  /-- The framing state (R22). -/
  st       : FramingState
  /-- Number of buffered bytes (R23). -/
  cnt      : Nat
  /-- The frame buffer: the cells ever written, offsets strictly rising (R24; log 6). -/
  buf      : List Host.Cell
  /-- The family selected by the sync pair (R25). -/
  fam      : Nat
  /-- The format selected in HEADER (R26). -/
  fmt      : FormatId
  /-- The resolved total length (R26). -/
  len      : Nat
  /-- The output trace, oldest event first (R37). -/
  out      : List Event
  /-- Operations issued and not yet taken, oldest first; the model's own field (R35, R36; log 2). -/
  input    : List Op
  /-- Command frames built by the software, oldest first; the model's own field (R199; log 12). -/
  commands : List (List Byte)
  /-- Ghost labels of the latest step; not an output, read by nothing (R251; log 4). -/
  labels   : List Label
deriving DecidableEq, Repr

/-- The state after reset (R39, R280) with `CAT_DEFAULT`. `fam`, `fmt`, `len` are unspecified there: DESIGN CHOICE, log 5;
the catalog and the fields of the environment: DESIGN CHOICE, log 1, 2, 4, 12. -/
def State.reset : State where
  cat := catDefault
  st := .sync0
  cnt := 0
  buf := []
  fam := 0
  fmt := .normalNoQuality
  len := 0
  out := []
  input := []
  commands := []
  labels := []

end Sys2Proof.Machine
end

