-- ==== Sys2Proof/Machine/Ops.lean ====
section
/-! DEFINITION. The named operations over the frame buffer and the registers: the buffer as a memory (R24, R50, R55),
labels, the output trace, and the one exceptional mechanism, the silent discard (R250 to R254). -/

namespace Sys2Proof.Machine

/-- The cell of an offset; an offset no cell lists has no value (R24). -/
def lookupCell : List Host.Cell → Nat → Option Byte
  | [], _ => none
  | c :: m, a => if c.1 = a then some c.2 else lookupCell m a

/-- Writing a cell in canonical form. -/
def insertCell (a : Nat) (v : Byte) : List Host.Cell → List Host.Cell
  | [] => [(a, v)]
  | c :: m =>
    if a < c.1 then (a, v) :: c :: m
    else if a = c.1 then (a, v) :: m
    else c :: insertCell a v m

/-- Every offset of the list is above `lo` where one is given, and offsets rise strictly. -/
def risesFrom : Option Nat → List Host.Cell → Bool
  | _, [] => true
  | lo, c :: m => (match lo with | none => true | some k => decide (k < c.1)) && risesFrom (some c.1) m

/-- The canonical form of the buffer: offsets strictly rising. An unlisted offset has no value, so no entry can equal
what an unlisted one reads as. -/
def Memory.wf (m : List Host.Cell) : Bool := risesFrom none m

/-- `MemRead(off, 1)`: only offsets below `cnt` hold a value (R24, R50, R56). -/
def State.read (s : State) (off : Nat) : Option Byte :=
  if off < s.cnt then lookupCell s.buf off else none

/-- `MemWrite(off, 1, b)`; none where the offset is outside the buffer (R50, R257 (a)). -/
def State.storeAt (s : State) (off : Nat) (b : Byte) : Option State :=
  if off < s.cat.bufSize then some { s with buf := insertCell off b s.buf } else none

/-- The state after the append `buf[cnt] <- b; cnt <- cnt + 1` (R55). -/
def State.push (s : State) (b : Byte) : State := { s with buf := insertCell s.cnt b s.buf, cnt := s.cnt + 1 }

/-- The append; none where the buffer is full (R55, R257 (a)). -/
def State.append (s : State) (b : Byte) : Option State :=
  if s.cnt < s.cat.bufSize then some (s.push b) else none

/-- The operations left to take (R36). -/
def State.withInput (s : State) (ops : List Op) : State := { s with input := ops }

/-- A FEED_BYTE begins with no label (R251). -/
def State.startStep (s : State) : State := { s with labels := [] }

/-- The bytes `buf[off..off+n-1]`, none where one of them has no value. -/
def State.readRange (s : State) : Nat → Nat → Option (List Byte)
  | _, 0 => some []
  | off, n + 1 =>
    match s.read off, s.readRange (off + 1) n with
    | some b, some bs => some (b :: bs)
    | _, _ => none

/-- The bytes of the current frame candidate, `buf[0..cnt-1]` (R16, R27). -/
def State.candidate (s : State) : Option (List Byte) := s.readRange 0 s.cnt

/-- A ghost label on the step under way (R251). -/
def State.label (s : State) (l : Label) : State := { s with labels := s.labels ++ [l] }

/-- `raise Discard(cause)`: exactly `cnt <- 0; st <- SYNC0`, nothing emitted, labelled with the cause; the buffer and the
other registers keep their bits and become invalid (R15, R253). It has no handler and no return (R254). -/
def State.discard (s : State) (cause : Cause) : State :=
  { s with cnt := 0, st := .sync0, labels := s.labels ++ [.drop cause] }

/-- The end of an EMIT step: the events in order, then the buffer cleared and `st <- SYNC0` (R163, R261). DESIGN CHOICE
(log 27): `buf`, `fam`, `fmt`, `len`, which may then hold any value (U1), keep their bits. -/
def State.emit (s : State) (es : List Event) : State :=
  { s with out := s.out ++ es, cnt := 0, st := .sync0, labels := s.labels ++ [.emit] }

/-- The operation RESET (R151): exactly `st <- SYNC0; cnt <- 0`; it emits nothing and recalls nothing emitted (log 3). It
is no FEED_BYTE step and carries no label (log 4). DESIGN CHOICE (log 27): `buf`, `fam`, `fmt`, `len`, which may then hold any
value (R280, U1), keep their bits. -/
def State.resetOp (s : State) : State := { s with st := .sync0, cnt := 0, labels := [] }

/-- The numeric code of a ghost label (R251). -/
def Label.code : Label → Nat
  | .sync0Skip => 0
  | .sync0Hit => 1
  | .sync1Hit => 2
  | .headerMore => 3
  | .headerDone => 4
  | .accumMore => 5
  | .emit => 6
  | .drop .dropSync1 => 8
  | .drop .dropModel => 9
  | .drop .dropLen => 10
  | .drop .dropCksum => 11

/-- The numeric encoding of the framing state (R22). -/
def FramingState.code : FramingState → Nat
  | .sync0 => 0
  | .sync1 => 1
  | .header => 2
  | .accum => 3
  | .complete => 4

end Sys2Proof.Machine
end

