-- ==== Sys2Proof/Machine/Command.lean ====
section
/-! DEFINITION. The meaning of the outbound command frame (R199). -/

namespace Sys2Proof.Machine

/-- CMD: `SendCommand(cmd, payload)` builds the command frame with the engine's ADD8 and hands it to the outbound path;
the block itself neither transmits nor decodes it, so nothing of the block changes (R199, R271; log 12). A payload of
more than 255 bytes has no length byte. -/
def execCmd (code : Byte) (payload : List Byte) (s : State) : Host.Outcome State Fault Refusal :=
  if payloadOk payload then .next { s with commands := s.commands ++ [commandFrame s.cat code payload] }
  else .refused .payloadTooLong

end Sys2Proof.Machine
end

