-- ==== Sys2Proof/Machine/Operands.lean ====
section
/-! DEFINITION. The operand forms of a frame: 16-bit fields, the fields of a point-cloud body and of a point, the fields of
an info frame (R51, R52, R84, R85, R221, R236). All reads are bounded by the frame; a read past it has no value (R56). -/

namespace Sys2Proof.Machine

/-- `u16le(f, off)` (R52). -/
def u16le (f : List Byte) (off : Nat) : Option Word :=
  match f[off]?, f[off + 1]? with
  | some lo, some hi => some (le16 lo hi)
  | _, _ => none

/-- The quality field of the point at offset `o`: nothing (0), one byte, or a 16-bit field at +2 (R84, R221). -/
def qualityAt (q : QKind) (f : List Byte) (o : Nat) : Option Word :=
  match q with
  | .none => some 0
  | .u8 => (f[o + 2]?).map fun (b : Byte) => b.setWidth 16
  | .u16 => u16le f (o + 2)

/-- The raw distance and the raw quality of point `j` (R221). -/
def pointAt (d : PcLayout) (f : List Byte) (j : Nat) : Option (Word × Word) :=
  match u16le f (d.ptsOff + j * d.p), qualityAt d.qkind f (d.ptsOff + j * d.p) with
  | some dist, some q => some (dist, q)
  | _, _ => none

/-- The raw points `j .. j+k-1`, in frame order (R221, R234). -/
def pointsFrom (d : PcLayout) (f : List Byte) : Nat → Nat → Option (List (Word × Word))
  | _, 0 => some []
  | j, k + 1 =>
    match pointAt d f j, pointsFrom d f (j + 1) k with
    | some pt, some pts => some (pt :: pts)
    | _, _ => none

/-- The raw fields of a point-cloud frame (R221). -/
structure PcFields where
  speedRaw : Word
  rawFirst : Word
  rawLast  : Word
  points   : List (Word × Word)
deriving DecidableEq, Repr

/-- Field extraction from a point-cloud frame (R221). -/
def pcFields (d : PcLayout) (f : List Byte) : Option PcFields :=
  match u16le f d.speedOff, u16le f d.firstOff, u16le f d.lastOff, pointsFrom d f 0 d.n with
  | some speed, some first, some last, some pts => some ⟨speed, first, last, pts⟩
  | _, _, _, _ => none

/-- Field extraction from an info frame with header length `h`: `cmd = f[2]`, `payload_len = f[H-1]`,
`payload = f[H..L-2]` (R236); none where `H` is not below the frame length, for then there is no such payload (R56). -/
def infoFields (fid : FormatId) (h : Nat) (f : List Byte) : Option InfoRecord :=
  match f[2]?, f[h - 1]?, f[h]? with
  | some c, some n, some _ => some { fmt := fid, cmd := c, payloadLen := n, payload := (f.take (f.length - 1)).drop h }
  | _, _, _ => none

end Sys2Proof.Machine
end

