-- ==== Sys2Proof/Machine/Flags.lean ====
section
/-! DEFINITION. The block has no persistent flags (R29); the one predicate with computations of its own is "checksum
matches": the four validators and their choice by `CKS` (R86, R122, R125, R129, R131, R162). -/

namespace Sys2Proof.Machine

/-- The answer of a validator, or the reason it has none. -/
abbrev Check := Host.Outcome Bool Fault Refusal

/-- `VALID_ADD8(f)` (R122). -/
def validAdd8 (f : List Byte) : Check :=
  match f[f.length - 1]? with
  | some c => .next (decide (add8 (f.take (f.length - 1)) = c))
  | none => .fault .readPastFrame

/-- `VALID_FOLD16(f)`, over all 16 bits of the field (R125); an odd length is refused (U3). -/
def validFold16 (f : List Byte) : Check :=
  if f.length % 2 = 1 then .refused .foldOddLength
  else
    match fold16 (f.take (f.length - 2)), u16le f (f.length - 2) with
    | some r, some field => .next (decide (r = field))
    | _, _ => .fault .readPastFrame

/-- `VALID_CRC8(f)` (R129). -/
def validCrc8 (cat : Catalog) (f : List Byte) : Check :=
  match f[f.length - 1]? with
  | none => .fault .readPastFrame
  | some c =>
    match crc8 cat (f.take (f.length - 1)) with
    | some r => .next (decide (r = c))
    | none => .fault .noTableEntry

/-- `VALID_CRC8W(f)`, the whole frame against `CRC8_RESIDUE` (R131). -/
def validCrc8w (cat : Catalog) (f : List Byte) : Check :=
  match crc8 cat f with
  | some r => .next (decide (r = cat.crc8Residue))
  | none => .fault .noTableEntry

/-- The validator a format's `CKS` names (R86, R162). -/
def validate (cat : Catalog) (kind : CksKind) (f : List Byte) : Check :=
  match kind with
  | .add8 => validAdd8 f
  | .fold16 => validFold16 f
  | .crc8 => validCrc8 cat f
  | .crc8w => validCrc8w cat f

end Sys2Proof.Machine
end

