-- ==== Sys2Proof/Machine/Handlers.lean ====
section
/-! DEFINITION. The format handlers DecodePoints and DecodeInfo (R220 to R237), and COMPLETE's validation and outcome as one
operation over a frame of a given format (R162, R163). -/

namespace Sys2Proof.Machine

/-- The catalog's `ROUND` (R8, R231). -/
def roundOut : Rounding → Rat → Rat
  | .identity, x => x
  | .implementation k, x => Config.round k x

/-- `fmod360(x) = x - 360 * floor(x / 360)` (R229). -/
def fmod360 (x : Rat) : Rat := x - 360 * ((x / 360).floor : Rat)

/-- `distance_mm` of a raw distance: 0 where bit 15 is set (R226). -/
def distanceMm (w : Word) : Nat := if w.getLsbD 15 then 0 else w.toNat

/-- Bias removal over the integers (R224). -/
def angleCount (d : PcLayout) (raw : Word) : Int := (raw.toNat : Int) - (d.bias : Int)

/-- `span` (R225). -/
def angleSpan (d : PcLayout) (first last : Int) : Int :=
  if last ≥ first then last - first else last + 360 * (d.u : Int) - first

/-- `angle_differ`, exact, degrees per point; 0 where `N <= 1` (R225, R230). -/
def angleDiffer (d : PcLayout) (first last : Int) : Rat :=
  if d.n ≤ 1 then 0 else (angleSpan d first last : Rat) / ((d.n : Rat) - 1) / (d.u : Rat)

/-- The exact angle of point `j` (R228). -/
def pointAngle (d : PcLayout) (first last : Int) (j : Nat) : Rat :=
  fmod360 ((first : Rat) / (d.u : Rat) + angleDiffer d first last * (j : Rat))

/-- `speed_rpm` before rounding (R223). -/
def speedRpm (d : PcLayout) (raw : Word) : Rat := (raw.toNat : Rat) * d.speedScale

/-- Point `j` of the batch from its raw fields; `speed` is the packet's rounded speed (R222, R226 to R228, R232). -/
def decodePoint (r : Rounding) (d : PcLayout) (speed : Rat) (first last : Int) (j : Nat) (raw : Word × Word) : Point where
  index := j
  angleDeg := roundOut r (pointAngle d first last j)
  distRaw := raw.1
  distanceMm := distanceMm raw.1
  qualityRaw := raw.2
  quality := roundOut r ((raw.2.toNat : Rat) * d.qScale)
  speedRpm := speed
  isWrap := false

/-- The decoded points from raw points, the first of index `j` (R234). -/
def decodePointList (r : Rounding) (d : PcLayout) (speed : Rat) (first last : Int) : Nat → List (Word × Word) → List Point
  | _, [] => []
  | j, raw :: raws => decodePoint r d speed first last j raw :: decodePointList r d speed first last (j + 1) raws

/-- The batch of a point-cloud frame's raw fields (R220, R223 to R232). -/
def batchOf (r : Rounding) (fid : FormatId) (d : PcLayout) (x : PcFields) : Batch :=
  let first := angleCount d x.rawFirst
  let last := angleCount d x.rawLast
  let speed := roundOut r (speedRpm d x.speedRaw)
  { fmt := fid, speedRaw := x.speedRaw, speedRpm := speed, firstAngle := first, lastAngle := last,
    angleDiffer := roundOut r (angleDiffer d first last),
    points := decodePointList r d speed first last 0 x.points }

/-- `DecodePoints(CAT, fmt, f)` for a format of kind PC with layout `d` (R220). -/
def decodePoints (cat : Catalog) (fid : FormatId) (d : PcLayout) (f : List Byte) : Option Batch :=
  (pcFields d f).map (batchOf cat.round fid d)

/-- `DecodeInfo(CAT, fmt, f)` for a frame with header length `h` (R236). -/
def decodeInfo (fid : FormatId) (h : Nat) (f : List Byte) : Option InfoRecord := infoFields fid h f

/-- The handler's event for an accepted frame, by the format's kind (R38, R163). -/
def handlerEvent (cat : Catalog) (fid : FormatId) (f : Frame) : Option Event :=
  match (cat.format fid).kind with
  | .pc d => (decodePoints cat fid d f.bytes).map .pointsOut
  | .info => (decodeInfo fid f.hdrLen f.bytes).map .infoOut

/-- COMPLETE on a frame of format `fid`: the validator of `CKS`, then FRAME_OUT and the handler's event, or
`Discard(DROP_CKSUM)` (R162, R163). -/
def completeFrame (fid : FormatId) (f : Frame) (s : State) : Host.Outcome State Fault Refusal :=
  match validate s.cat (s.cat.format fid).cks f.bytes with
  | .next true =>
    match handlerEvent s.cat fid f with
    | some e => .next (s.emit [.frameOut fid f.bytes, e])
    | none => .fault .readPastFrame
  | .next false => .next (s.discard .dropCksum)
  | .fault r => .fault r
  | .refused r => .refused r

/-- The error code an info record means: FAULT_MAP for a record of format 5 (R237). DESIGN CHOICE (log 8): none for the two
device-info formats, though the source does not say in which format a reset report arrives (R196). No step reads it. -/
def errorCodeOf (r : InfoRecord) : Option ErrorCode :=
  if r.fmt = .errorFault then some (Config.faultMap r) else none

end Sys2Proof.Machine
end

