-- ==== Sys2Proof/Machine/InfoFormats.lean ====
section
/-! DEFINITION. The meanings of the info and fault formats (R196 to R198): COMPLETE on a frame of that format. -/

namespace Sys2Proof.Machine

/-- ErrorFault, id 5: a frame like any other for the block (R196, R237, R258). -/
def execErrorFault (f : Frame) (s : State) : Host.Outcome State Fault Refusal := completeFrame .errorFault f s

/-- UpBoardInfo, id 6 (R197). -/
def execUpBoardInfo (f : Frame) (s : State) : Host.Outcome State Fault Refusal := completeFrame .upBoardInfo f s

/-- DownBoardInfo, id 7 (R198). -/
def execDownBoardInfo (f : Frame) (s : State) : Host.Outcome State Fault Refusal := completeFrame .downBoardInfo f s

end Sys2Proof.Machine
end

