-- ==== Sys2Proof/Machine/PointFormats.lean ====
section
/-! DEFINITION. The meanings of the five point-cloud formats (R191 to R195): COMPLETE on a frame of that format. -/

namespace Sys2Proof.Machine

/-- NormalNoQuality, id 0 (R191). -/
def execNormalNoQuality (f : Frame) (s : State) : Host.Outcome State Fault Refusal := completeFrame .normalNoQuality f s

/-- NormalQuality, id 1 (R192). -/
def execNormalQuality (f : Frame) (s : State) : Host.Outcome State Fault Refusal := completeFrame .normalQuality f s

/-- YwQuality, id 2 (R193). -/
def execYwQuality (f : Frame) (s : State) : Host.Outcome State Fault Refusal := completeFrame .ywQuality f s

/-- FsTestQuality, id 3 (R194). -/
def execFsTestQuality (f : Frame) (s : State) : Host.Outcome State Fault Refusal := completeFrame .fsTestQuality f s

/-- T10Quality, id 4 (R195). -/
def execT10Quality (f : Frame) (s : State) : Host.Outcome State Fault Refusal := completeFrame .t10Quality f s

end Sys2Proof.Machine
end

