-- ==== Sys2Proof/Machine/Dispatch.lean ====
section
/-! DEFINITION. exec: one arm per row of the opcode table, each one call of its meaning. -/

namespace Sys2Proof.Machine

def exec (i : Instr) (s : State) : Host.Outcome State Fault Refusal :=
  match i with
  | .normalNoQuality f => Sys2Proof.Machine.execNormalNoQuality f s
  | .normalQuality f => Sys2Proof.Machine.execNormalQuality f s
  | .ywQuality f => Sys2Proof.Machine.execYwQuality f s
  | .fsTestQuality f => Sys2Proof.Machine.execFsTestQuality f s
  | .t10Quality f => Sys2Proof.Machine.execT10Quality f s
  | .errorFault f => Sys2Proof.Machine.execErrorFault f s
  | .upBoardInfo f => Sys2Proof.Machine.execUpBoardInfo f s
  | .downBoardInfo f => Sys2Proof.Machine.execDownBoardInfo f s
  | .cmd code payload => Sys2Proof.Machine.execCmd code payload s

end Sys2Proof.Machine
end

