-- ==== Sys2Proof/Machine/Framing.lean ====
section
/-! DEFINITION. The framing state machine: FEED_BYTE and its micro-operations SYNC0, SYNC1, HEADER, ACCUM, COMPLETE (R150
to R163), FEED (R164), and the placing of a frame for withFetchWord. -/

namespace Sys2Proof.Machine

/-- Micro-operation SYNC0 (R153). -/
def microSync0 (b : Byte) (s : State) : Host.Outcome State Fault Refusal :=
  if s.cat.inFirst b then
    match s.storeAt 0 b with
    | some t => .next ({ t with cnt := 1, st := .sync1 }.label .sync0Hit)
    | none => .fault .bufferOverflow
  else .next (s.label .sync0Skip)

/-- Micro-operation SYNC1: the match case (R154), or the discard with the re-examination of the same byte (R155). -/
def microSync1 (b : Byte) (s : State) : Host.Outcome State Fault Refusal :=
  match s.read 0 with
  | none => .fault .readPastCount
  | some a =>
    match s.cat.familyOf a b with
    | some (i, _) =>
      match s.storeAt 1 b with
      | some t => .next ({ t with cnt := 2, fam := i, st := .header }.label .sync1Hit)
      | none => .fault .bufferOverflow
    | none => microSync0 b (s.discard .dropSync1)

/-- HEADER with the header complete: the length resolution (R157, R158) and its range check (R159). -/
def resolveHeader (F : Family) (m0 m1 : Byte) (s : State) : Host.Outcome State Fault Refusal :=
  match s.cat.resolve F m0 m1 with
  | .unknownModel => .next (s.discard .dropModel)
  | .noLength => .fault .noConstantLength
  | .format fid len =>
    if s.cat.lengthOk F len then .next ({ s with fmt := fid, len := len, st := .accum }.label .headerDone)
    else .next ({ s with fmt := fid, len := len }.discard .dropLen)

/-- Micro-operation HEADER (R156 to R159). -/
def microHeader (b : Byte) (s : State) : Host.Outcome State Fault Refusal :=
  match s.cat.families[s.fam]? with
  | none => .fault .noFamily
  | some F =>
    match s.append b with
    | none => .fault .bufferOverflow
    | some t =>
      if t.cnt < F.hdrLen then .next (t.label .headerMore)
      else
        match t.read (F.hdrLen - 2), t.read (F.hdrLen - 1) with
        | some m0, some m1 => resolveHeader F m0 m1 t
        | _, _ => .fault .readPastCount

/-- Why the bytes `buf[0..len-1]` are no frame: their pair is no family's, or the frame is too short for a header and a
checksum field, so that one of their offsets lies at or above `cnt` (R56, R80). -/
def splitFault (cat : Catalog) : List Byte → Fault
  | a :: b :: _ =>
    match cat.familyOf a b with
    | none => .noFamily
    | some _ => .readPastFrame
  | _ => .readPastFrame

/-- Micro-operation COMPLETE: the full frame `buf[0..len-1]` is handed to the meaning of the format in `fmt` (R162, R163). -/
def microComplete (s : State) : Host.Outcome State Fault Refusal :=
  match s.readRange 0 s.len with
  | none => .fault .readPastCount
  | some bytes =>
    match s.cat.split s.fmt bytes with
    | none => .fault (splitFault s.cat bytes)
    | some f => exec (.ofFormat s.fmt f) s

/-- Micro-operation ACCUM, continued by COMPLETE on the final byte (R160, R161). -/
def microAccum (b : Byte) (s : State) : Host.Outcome State Fault Refusal :=
  match s.append b with
  | none => .fault .bufferOverflow
  | some t => if t.cnt < t.len then .next (t.label .accumMore) else microComplete t

/-- `FEED_BYTE(b)`: one step of the framing machine, with labels of its own (R152, R251). -/
def feedByte (b : Byte) (s : State) : Host.Outcome State Fault Refusal :=
  match s.st with
  | .sync0 => microSync0 b s.startStep
  | .sync1 => microSync1 b s.startStep
  | .header => microHeader b s.startStep
  | .accum => microAccum b s.startStep
  | .complete => .fault .storedComplete

/-- `FEED(bytes)` (R164). -/
def feed : List Byte → State → Host.Outcome State Fault Refusal
  | [], s => .next s
  | b :: bs, s =>
    match feedByte b s with
    | .next t => feed bs t
    | .fault r => .fault r
    | .refused r => .refused r

/-- One operation: the block's RESET and FEED_BYTE (R150), or the software's SendCommand (R199; log 12). -/
def runOp (op : Op) (s : State) : Host.Outcome State Fault Refusal :=
  match op with
  | .reset => .next s.resetOp
  | .feedByte b => feedByte b s
  | .sendCommand code payload => exec (.cmd code payload) s

/-- The oldest operation the environment has issued, taken and run (R35, R36); with none issued the block holds its state
(R270, R286, R287; log 2). -/
def takeOp (s : State) : Host.Outcome State Fault Refusal :=
  match s.input with
  | [] => .next s
  | op :: ops => runOp op (s.withInput ops)

/-- The buffer with the bytes stored from offset `off` on. -/
def storeBytes : Nat → List Byte → List Host.Cell → List Host.Cell
  | _, [], m => m
  | off, b :: bs, m => storeBytes (off + 1) bs (insertCell off b m)

/-- `s` as FEED of all but the last byte of a frame leaves it (R27, I3), its last byte the next operation (log 11). -/
def State.withFrame (s : State) (fam : Nat) (fid : FormatId) (bytes : List Byte) : State :=
  { s with st := .accum, fam := fam, fmt := fid, len := bytes.length, cnt := bytes.length - 1,
           buf := storeBytes 0 bytes.dropLast s.buf,
           input := .feedByte (bytes.getLastD 0) :: s.input }

/-- `s` with the bytes of a table row placed: a frame of `s.cat` as above; other bytes as input after a RESET. -/
def State.withTableBytes (s : State) (nbits w : Nat) : State :=
  match decode s.cat (padRow s.cat (rowBytes nbits w)) with
  | .ok (i, _) =>
    match i.inbound with
    | some (fid, f) =>
      match s.cat.familyOf f.sync0 f.sync1 with
      | some (fam, _) => s.withFrame fam fid f.bytes
      | none => s
    | none => s
  | .error _ => { s with st := .sync0, cnt := 0, input := (rowBytes nbits w).map .feedByte ++ s.input }

end Sys2Proof.Machine
end

