-- ==== Sys2Proof/Machine/Step.lean ====
section
/-! DEFINITION. One step: the oldest operation the environment has issued (R20, R35, R36), refused under an ill-formed catalog
(R12); and the placing of a row's bytes for the host. -/

namespace Sys2Proof.Machine

/-- One step of the model: an ill-formed catalog is refused before any operation (R12, U2), else the next operation runs. -/
def step (s : State) : Host.Outcome State Fault Refusal :=
  if s.cat.wf then takeOp s else .refused .illFormedCatalog

/-- `s` with the instruction of a table row placed so that the next step runs it (log 11). -/
def State.withFetchWord (s : State) (nbits w : Nat) : State := s.withTableBytes nbits w

end Sys2Proof.Machine
end

