-- ==== Sys2Proof/Safety.lean ====
section
/-! DEFINITION. What claims call a good state (the invariant of R27 with the buffer's canonical form), a valid frame (R168),
and an operation the environment may issue. -/

namespace Sys2Proof

/-- Every header fits in the buffer: what R257 (a) states of `HDR_LEN`, and W1 to W7 give for every family but a MODEL
family with empty ENTRIES (log 9). -/
def Catalog.headersFit (cat : Catalog) : Bool := cat.families.all fun F => decide (F.hdrLen ≤ cat.bufSize)

end Sys2Proof

namespace Sys2Proof.Machine

/-- The header facts of I2 and I3: the candidate begins with the sync pair of family `fam` (R27). -/
def headerPair (F : Family) : List Byte → Bool
  | a :: b :: _ => decide (F.sync0 = a ∧ F.sync1 = b)
  | _ => false

/-- `fmt` and `len` are what the header of the candidate resolves to (R27, I3). -/
def headerResolves (cat : Catalog) (F : Family) (bs : List Byte) (fid : FormatId) (len : Nat) : Bool :=
  match bs[F.hdrLen - 2]?, bs[F.hdrLen - 1]? with
  | some m0, some m1 => decide (cat.resolve F m0 m1 = .format fid len)
  | _, _ => false

/-- The clauses I0 to I3 of R27. -/
def State.framingOk (s : State) : Bool :=
  match s.st with
  | .sync0 => decide (s.cnt = 0)
  | .sync1 =>
    match s.candidate with
    | some [a] => s.cat.inFirst a
    | _ => false
  | .header =>
    match s.candidate, s.cat.families[s.fam]? with
    | some bs, some F => headerPair F bs && decide (s.cnt < F.hdrLen)
    | _, _ => false
  | .accum =>
    match s.candidate, s.cat.families[s.fam]? with
    | some bs, some F =>
      headerPair F bs && decide (F.hdrLen ≤ s.cnt) && decide (s.cnt < s.len) && decide (s.len ≤ s.cat.bufSize) &&
        headerResolves s.cat F bs s.fmt s.len
    | _, _ => false
  | .complete => false

/-- A good state: a well-formed catalog whose headers fit in the buffer, a buffer in canonical form and within BUF_SIZE,
and R27. -/
def State.inv (s : State) : Bool :=
  s.cat.wf && s.cat.headersFit && Memory.wf s.buf && s.buf.all (fun c => decide (c.1 < s.cat.bufSize)) && s.framingOk

/-- A frame that is valid for a catalog: the encoding admits it and its format's validator accepts it (R168). -/
def validFrame (cat : Catalog) (fid : FormatId) (f : Frame) : Prop :=
  f.wf cat fid = true ∧ validate cat (cat.format fid).cks f.bytes = .next true

/-- Two states that agree on everything that is valid in them: the catalog, `st`, `cnt`, the candidate's bytes, `fam` in
HEADER and ACCUM, `fmt` and `len` in ACCUM (R21), and the interfaces. The rest is "any value" (U1, R280). -/
def sameValid (s t : State) : Prop :=
  s.cat = t.cat ∧ s.st = t.st ∧ s.cnt = t.cnt ∧ s.candidate = t.candidate ∧ s.out = t.out ∧ s.input = t.input ∧
  s.commands = t.commands ∧ (s.st = .header ∨ s.st = .accum → s.fam = t.fam) ∧
  (s.st = .accum → s.fmt = t.fmt ∧ s.len = t.len)

/-- An operation that can be issued: a command payload has a length byte (R199). -/
def Op.ok : Op → Bool
  | .sendCommand _ payload => payloadOk payload
  | _ => true

/-- The next operation, where there is one, can be issued. -/
def State.nextOpOk (s : State) : Bool :=
  match s.input with
  | [] => true
  | op :: _ => op.ok

end Sys2Proof.Machine
end

