-- ==== Sys2Proof/Certificates/Slice0/Obligations.lean ====
section
/-! DEFINITION. The statements for the provers, from the numbered rules of spec/. In a statement about every step the
operations are RESET and FEED_BYTE and, by the model's choice, sendCommand (log 12) and no operation at all (log 2). -/

open Sys2Proof Sys2Proof.Machine

/-! ## Encoding -/

/-- Frames written out from the layouts of R102 and R107 decode to their instructions, and the three looks of R90 reject
by name. -/
def Obligations.SampleFramesDecode : Prop :=
  decode catDefault [0xA5, 0x5A, 0x02, 0x00, 0x01] = .ok (.upBoardInfo ⟨0xA5, 0x5A, [0x02, 0x00], [], [0x01]⟩, []) ∧
  decode catDefault [0x5A, 0xA5, 0x10, 0x03, 0xDE, 0xAD, 0xBE, 0x5B] =
    .ok (.downBoardInfo ⟨0x5A, 0xA5, [0x10, 0x03], [0xDE, 0xAD, 0xBE], [0x5B]⟩, []) ∧
  decode catDefault [0xA5, 0xEE, 0x01, 0x01, 0x02, 0x97, 0x55] =
    .ok (.errorFault ⟨0xA5, 0xEE, [0x01, 0x01], [0x02], [0x97]⟩, [0x55]) ∧
  decode catDefault
      [0x55, 0xAA, 0x01, 0x08, 0x00, 0x4B, 0x80, 0xF7, 0xF4, 0x01, 0xF5, 0x01, 0xF6, 0x01, 0xF7, 0x01, 0xF8, 0x01,
       0xF9, 0x01, 0xFA, 0x01, 0xFB, 0x01, 0x00, 0xA1, 0x0F, 0x7B] =
    .ok (.normalNoQuality ⟨0x55, 0xAA, [0x01, 0x08],
      [0x00, 0x4B, 0x80, 0xF7, 0xF4, 0x01, 0xF5, 0x01, 0xF6, 0x01, 0xF7, 0x01, 0xF8, 0x01, 0xF9, 0x01, 0xFA, 0x01,
       0xFB, 0x01, 0x00, 0xA1], [0x0F, 0x7B]⟩, []) ∧
  decode catDefault [0xAA] = .error .notFirst ∧
  decode catDefault [0x55, 0x5A] = .error .notPair ∧
  decode catDefault [0x55, 0xAA, 0x09, 0x09] = .error .unknownModel ∧
  decode catDefault [0xA5, 0x5A, 0x02, 0x01, 0x00] = .error .truncated

/-- Decoding what is encoded gives the instruction back with the bytes that follow it, for every catalog: an inbound frame
by `decode` (R80 to R90), the outbound command frame by `decodeCommand`, a decoder of the model's own: DESIGN CHOICE, log
13. -/
def Obligations.EncodedInstructionDecodesBack : Prop :=
  ∀ (cat : Catalog) (i : Instr) (rest : List Byte), i.wf cat = true →
    (i.inbound ≠ none → decode cat (encode cat i ++ rest) = .ok (i, rest)) ∧
    (i.inbound = none → decodeCommand cat (encode cat i ++ rest) = some (i, rest))

/-- What decodes is a well-formed instruction whose encoding is the bytes read, for every well-formed catalog (R90). -/
def Obligations.DecodedBytesEncodeBack : Prop :=
  ∀ (cat : Catalog) (bs rest : List Byte) (i : Instr), cat.wf = true → decode cat bs = .ok (i, rest) →
    i.wf cat = true ∧ bs = encode cat i ++ rest

/-- A step on the final byte of a candidate runs exec of the instruction its bytes decode to, on the state with that byte
appended (R161, R162). -/
def Obligations.StepRunsDecodedFrame : Prop :=
  ∀ (s : State) (b : Byte) (ops : List Op) (bs : List Byte) (i : Instr), s.inv = true → s.st = .accum →
    s.cnt + 1 = s.len → s.input = .feedByte b :: ops → s.candidate = some bs →
    decode s.cat (bs ++ [b]) = .ok (i, []) →
    step s = exec i { s with buf := insertCell s.cnt b s.buf, cnt := s.cnt + 1, input := ops, labels := [] }

/-- On the final byte of a candidate the bytes always decode, to an instruction of the format in `fmt` (R26, R27). -/
def Obligations.FinalByteAlwaysDecodes : Prop :=
  ∀ (s : State) (b : Byte) (bs : List Byte), s.inv = true → s.st = .accum → s.cnt + 1 = s.len →
    s.candidate = some bs →
    ∃ f : Frame, decode s.cat (bs ++ [b]) = .ok (.ofFormat s.fmt f, []) ∧ f.bytes = bs ++ [b]

/-! ## Checksum engine -/

/-- ADD8 is the sum of the bytes modulo 256, independent of their order and of zero bytes (R121). -/
def Obligations.Add8IsSumModulo256 : Prop :=
  (∀ bs : List Byte, (add8 bs).toNat = (bs.map BitVec.toNat).sum % 256) ∧
  (∀ xs ys : List Byte, xs.Perm ys → add8 xs = add8 ys) ∧
  (∀ xs ys : List Byte, add8 (xs ++ 0 :: ys) = add8 (xs ++ ys)) ∧
  add8 [] = 0x00 ∧ add8 [0xFF, 0x01] = 0x00 ∧ add8 [0xFF, 0xFF, 0xFF] = 0xFD ∧
  add8 [0xA5, 0x5A, 0x02, 0x00] = 0x01

/-- The words of an even number of bytes, each weighted by a power of two, the last by one (R126 (b)). -/
def foldWordSum : List Byte → Nat
  | lo :: hi :: rest => (lo.toNat + 256 * hi.toNat) * 2 ^ (rest.length / 2) + foldWordSum rest
  | _ => 0

/-- FOLD16 is a function of the weighted word sum modulo 2^30 (R126 (b)); it has a value on every even number of bytes. -/
def Obligations.Fold16DependsOnThirtyBits : Prop :=
  ∀ bs : List Byte, bs.length % 2 = 0 → ∃ r, fold16 bs = some r ∧
    r.toNat = (foldWordSum bs % 2 ^ 30 % 2 ^ 15 + foldWordSum bs % 2 ^ 30 / 2 ^ 15 % 2 ^ 15) % 2 ^ 15

/-- A word that stands 30 or more words before the end of the covered range does not affect FOLD16 (R126 (c)). -/
def Obligations.Fold16LeadingWordsUnprotected : Prop :=
  ∀ (lo lo' hi hi' : Byte) (front back : List Byte), front.length % 2 = 0 → back.length % 2 = 0 → 60 ≤ back.length →
    fold16 (front ++ lo :: hi :: back) = fold16 (front ++ lo' :: hi' :: back)

/-- Bit 15 of a FOLD16 field must be 0: FOLD16 is at most 0x7FFF and a frame whose last byte has bit 7 set never passes
(R94). -/
def Obligations.Fold16HighBitNeverAccepted : Prop :=
  (∀ (bs : List Byte) (r : Word), fold16 bs = some r → r.toNat ≤ 0x7FFF) ∧
  (∀ (f : List Byte) (hi : Byte), f[f.length - 1]? = some hi → hi.getLsbD 7 = true → validFold16 f ≠ .next true)

/-- The relation between CRC8 and CRC8W (R132). -/
def Obligations.Crc8WholeFrameRelation : Prop :=
  (∀ (cat : Catalog) (g : List Byte) (c x : Byte), crc8 cat g = some c →
    crc8 cat (g ++ [x]) = cat.crc8Table[(c ^^^ x).toNat]?) ∧
  (∀ (cat : Catalog) (f : List Byte), cat.crc8Table.length = 256 → cat.crc8Table[0]? = some cat.crc8Residue → f ≠ [] →
    (validCrc8 cat f = .next true → validCrc8w cat f = .next true) ∧
    (cat.crc8Table.Nodup → validCrc8w cat f = validCrc8 cat f)) ∧
  (catDefault.crc8Table[0]? = some 0x00 ∧ catDefault.crc8Residue = 0x00 ∧ catDefault.crc8Table.Nodup)

/-- Each validator compares the function of the covered bytes with the trailing field, CRC8W the whole frame with the
residue (R86). -/
def Obligations.ValidatorsCompareTrailingField : Prop :=
  ∀ (cat : Catalog) (g : List Byte), cat.crc8Table.length = 256 →
    (∀ c : Byte, validate cat .add8 (g ++ [c]) = .next (decide (add8 g = c)) ∧
      (∃ r, crc8 cat g = some r ∧ validate cat .crc8 (g ++ [c]) = .next (decide (r = c))) ∧
      (∃ r, crc8 cat (g ++ [c]) = some r ∧ validate cat .crc8w (g ++ [c]) = .next (decide (r = cat.crc8Residue)))) ∧
    (g.length % 2 = 0 → ∀ lo hi : Byte, ∃ r, fold16 g = some r ∧
      validate cat .fold16 (g ++ [lo, hi]) = .next (decide (r = le16 lo hi)))

/-- A sealed frame is accepted: every checksum has a field that seals `g`, and the validator accepts `g` with it (R135).
-/
def Obligations.SealedFramesAreAccepted : Prop :=
  ∀ (cat : Catalog) (kind : CksKind) (g : List Byte), cat.crc8Table.length = 256 →
    (kind = .fold16 → g.length % 2 = 0) → (kind = .crc8w → cat.crc8Table[0]? = some cat.crc8Residue) →
    ∃ field, sealField cat kind g = some field ∧ field.length = kind.width ∧ validate cat kind (g ++ field) = .next true

/-- Every bit of the engine's input reaches ADD8 and, with a table without repeats, CRC8: changing one byte changes the
result (R121, R128). -/
def Obligations.SingleByteChangeIsDetected : Prop :=
  ∀ (cat : Catalog) (front back : List Byte) (x y : Byte), x ≠ y →
    add8 (front ++ x :: back) ≠ add8 (front ++ y :: back) ∧
    (cat.crc8Table.length = 256 → cat.crc8Table.Nodup →
      crc8 cat (front ++ x :: back) ≠ crc8 cat (front ++ y :: back))

/-! ## The framing state machine -/

/-- RESET in any state gives SYNC0 and an empty candidate and emits nothing; twice equals once (R151). That the trace is
kept (DEDUCED, log 3), that the labels are emptied (DESIGN CHOICE, log 4) and that `buf`, `fam`, `fmt`, `len` keep their
bits (DESIGN CHOICE, log 27) is the model's. -/
def Obligations.ResetReturnsToSync0 : Prop :=
  (∀ (s : State) (ops : List Op), s.cat.wf = true → s.input = .reset :: ops →
    step s = .next { s with st := .sync0, cnt := 0, input := ops, labels := [] }) ∧
  (∀ s : State, s.resetOp.resetOp = s.resetOp ∧ s.resetOp.candidate = some [] ∧ ∀ k, s.resetOp.read k = none)

/-- SYNC0: a byte in FIRST is buffered alone and `st` becomes SYNC1; any other byte changes nothing (R153). -/
def Obligations.Sync0BuffersFirstSyncByte : Prop :=
  ∀ (s : State) (b : Byte) (ops : List Op), s.inv = true → s.st = .sync0 → s.input = .feedByte b :: ops →
    if s.cat.inFirst b then
      ∃ t, step s = .next t ∧ t.candidate = some [b] ∧
        t = { s with buf := insertCell 0 b s.buf, cnt := 1, st := .sync1, input := ops, labels := [.sync0Hit] }
    else step s = .next { s with input := ops, labels := [.sync0Skip] }

/-- SYNC1, match: the second byte is buffered, the family is that of the pair, and `st` becomes HEADER (R154). -/
def Obligations.Sync1PairSelectsFamily : Prop :=
  ∀ (s : State) (a b : Byte) (i : Nat) (F : Family) (ops : List Op), s.inv = true → s.st = .sync1 →
    s.input = .feedByte b :: ops → s.candidate = some [a] → s.cat.familyOf a b = some (i, F) →
    ∃ t, step s = .next t ∧ t.candidate = some [a, b] ∧
      t = { s with buf := insertCell 1 b s.buf, cnt := 2, fam := i, st := .header, input := ops, labels := [.sync1Hit] }

/-- SYNC1, mismatch: the first byte is dropped and the same byte is examined as SYNC0 examines it (R155). -/
def Obligations.Sync1MismatchReexaminesByte : Prop :=
  ∀ (s : State) (a b : Byte) (ops : List Op), s.inv = true → s.st = .sync1 → s.input = .feedByte b :: ops →
    s.candidate = some [a] → s.cat.familyOf a b = none →
    if s.cat.inFirst b then
      ∃ t, step s = .next t ∧ t.candidate = some [b] ∧
        t = { s with buf := insertCell 0 b s.buf, cnt := 1, input := ops, labels := [.drop .dropSync1, .sync0Hit] }
    else step s = .next { s with cnt := 0, st := .sync0, input := ops, labels := [.drop .dropSync1, .sync0Skip] }

/-- HEADER, not yet complete: the byte is appended and nothing else happens (R156). -/
def Obligations.HeaderCollectsBytes : Prop :=
  ∀ (s : State) (b : Byte) (F : Family) (bs : List Byte) (ops : List Op), s.inv = true → s.st = .header →
    s.input = .feedByte b :: ops → s.cat.families[s.fam]? = some F → s.candidate = some bs → s.cnt + 1 < F.hdrLen →
    ∃ t, step s = .next t ∧ t.candidate = some (bs ++ [b]) ∧
      t = { s with buf := insertCell s.cnt b s.buf, cnt := s.cnt + 1, input := ops, labels := [.headerMore] }

/-- HEADER, complete, MODEL family: a model code in ENTRIES sets `fmt` and `len`; any other is silently discarded and its
last byte is not examined again (R157). -/
def Obligations.ModelCodeSelectsFormat : Prop :=
  ∀ (s : State) (m0 m1 : Byte) (F : Family) (entries : List ModelEntry) (bs : List Byte) (ops : List Op),
    s.inv = true → s.st = .header → s.input = .feedByte m1 :: ops → s.cat.families[s.fam]? = some F →
    F.mode = .model entries → s.candidate = some bs → s.cnt + 1 = F.hdrLen → bs[F.hdrLen - 2]? = some m0 →
    match lookupModel m0 m1 entries with
    | none =>
      step s = .next { s with buf := insertCell s.cnt m1 s.buf, cnt := 0, st := .sync0, input := ops,
                              labels := [.drop .dropModel] }
    | some fid =>
      ∃ d t, (s.cat.format fid).kind = .pc d ∧ step s = .next t ∧ t.candidate = some (bs ++ [m1]) ∧
        t = { s with buf := insertCell s.cnt m1 s.buf, cnt := s.cnt + 1, st := .accum, fmt := fid, len := d.len,
                     input := ops, labels := [.headerDone] }

/-- HEADER, complete, PLEN family: the format is the family's and `len` is the payload-length byte plus OVERHEAD, without
wrap-around (R158). -/
def Obligations.PayloadLengthSetsLength : Prop :=
  ∀ (s : State) (n : Byte) (F : Family) (fid : FormatId) (overhead : Nat) (bs : List Byte) (ops : List Op),
    s.inv = true → s.st = .header → s.input = .feedByte n :: ops → s.cat.families[s.fam]? = some F →
    F.mode = .plen fid overhead → s.candidate = some bs → s.cnt + 1 = F.hdrLen →
    ∃ t, step s = .next t ∧ t.candidate = some (bs ++ [n]) ∧
      t = { s with buf := insertCell s.cnt n s.buf, cnt := s.cnt + 1, st := .accum, fmt := fid,
                   len := n.toNat + overhead, input := ops, labels := [.headerDone] }

/-- With a well-formed catalog the discard DROP_LEN never fires, from any state (R159, R251). -/
def Obligations.DropLenNeverFires : Prop :=
  ∀ (s t : State) (b : Byte) (ops : List Op), s.input = .feedByte b :: ops → step s = .next t →
    Label.drop .dropLen ∉ t.labels

/-- ACCUM, not the final byte: the byte is appended, whatever it is (R160). -/
def Obligations.AccumCollectsBytes : Prop :=
  ∀ (s : State) (b : Byte) (bs : List Byte) (ops : List Op), s.inv = true → s.st = .accum →
    s.input = .feedByte b :: ops → s.candidate = some bs → s.cnt + 1 < s.len →
    ∃ t, step s = .next t ∧ t.candidate = some (bs ++ [b]) ∧
      t = { s with buf := insertCell s.cnt b s.buf, cnt := s.cnt + 1, input := ops, labels := [.accumMore] }

/-- The final byte: the whole frame is validated by the algorithm of its format, and either FRAME_OUT and the handler's
event are emitted or nothing is; both ways the machine is in SYNC0 with nothing buffered (R161, R162, R163). -/
def Obligations.FinalByteValidatesFrame : Prop :=
  ∀ (s : State) (b : Byte) (bs : List Byte) (ops : List Op), s.inv = true → s.st = .accum →
    s.input = .feedByte b :: ops → s.candidate = some bs → s.cnt + 1 = s.len →
    ∃ (ok : Bool) (e : Event) (F : Family) (t : State), s.cat.families[s.fam]? = some F ∧
      validate s.cat (s.cat.format s.fmt).cks (bs ++ [b]) = .next ok ∧
      (∀ d, (s.cat.format s.fmt).kind = .pc d →
        ∃ batch, decodePoints s.cat s.fmt d (bs ++ [b]) = some batch ∧ e = .pointsOut batch) ∧
      ((s.cat.format s.fmt).kind = .info →
        ∃ record, decodeInfo s.fmt F.hdrLen (bs ++ [b]) = some record ∧ e = .infoOut record) ∧
      step s = .next t ∧ t.st = .sync0 ∧ t.cnt = 0 ∧ t.candidate = some [] ∧
      t.out = s.out ++ (if ok then [.frameOut s.fmt (bs ++ [b]), e] else []) ∧
      t.labels = [if ok then .emit else .drop .dropCksum]

/-! ## Invariants and whole-machine rules -/

/-- The reset values of R39, and that the values of `fam`, `fmt`, `len`, unspecified there (the model's choice, log 5),
and of a well-formed catalog whose headers fit in the buffer (log 9) do not matter to the invariant. -/
def Obligations.ResetStateIsGood : Prop :=
  State.reset.st = .sync0 ∧ State.reset.cnt = 0 ∧ (∀ k, State.reset.read k = none) ∧ State.reset.out = [] ∧
  (∀ (fam len : Nat) (fid : FormatId), { State.reset with fam := fam, fmt := fid, len := len }.inv = true) ∧
  (∀ cat : Catalog, cat.wf = true → cat.headersFit = true → { State.reset with cat := cat }.inv = true)

/-- Every step keeps the invariant of R27, the canonical form of the buffer and its bound, under a catalog whose headers
fit in the buffer (R257 (a), log 9). The steps include the model's own sendCommand (log 12) and the idle step (log 2). -/
def Obligations.StepKeepsInvariant : Prop :=
  ∀ s t : State, s.inv = true → step s = .next t → t.inv = true

/-- From every good state every operation that can be issued has a next state: the block never stops, faults or needs a
RESET (R150, R250, R257). In a good state every header fits in the buffer, as R257 (a) has it (log 9). The operations
include the model's own sendCommand with a payload it does not refuse (log 12), and the step with no operation (log 2).
-/
def Obligations.GoodStateAlwaysSteps : Prop :=
  ∀ s : State, s.inv = true → s.nextOpOk = true → ∃ t, step s = .next t

/-- After a FEED_BYTE the candidate is the old one with the byte appended, the byte alone, or empty (R27, R165). -/
def Obligations.CandidateIsLastBytesFed : Prop :=
  ∀ (s t : State) (b : Byte) (bs : List Byte) (ops : List Op), s.inv = true → s.input = .feedByte b :: ops →
    s.candidate = some bs → step s = .next t →
    t.candidate = some (bs ++ [b]) ∨ t.candidate = some [b] ∨ t.candidate = some []

/-- What is invalid is never observed: good states that agree on everything valid step to states that agree on everything
valid, events included (U1, R21, R280). -/
def Obligations.InvalidBitsAreUnobservable : Prop :=
  ∀ s t : State, s.inv = true → t.inv = true → sameValid s t → s.nextOpOk = true →
    ∃ s' t', step s = .next s' ∧ step t = .next t' ∧ sameValid s' t'

/-- No output and no register depends on a ghost label (R251). -/
def Obligations.GhostLabelsAreUnobservable : Prop :=
  ∀ (s t : State) (ls : List Label), step s = .next t →
    ∃ t', step { s with labels := ls } = .next t' ∧ { t' with labels := [] } = { t with labels := [] }

/-- Each FEED_BYTE carries one label, or DROP_SYNC1 with the label of the re-examination; and it emits exactly when the
label is EMIT (R251, R255). -/
def Obligations.EachStepCarriesItsLabels : Prop :=
  ∀ (s t : State) (b : Byte) (ops : List Op), s.input = .feedByte b :: ops → step s = .next t →
    ((∃ l, t.labels = [l] ∧ l ≠ .drop .dropSync1) ∨
      t.labels = [.drop .dropSync1, .sync0Skip] ∨ t.labels = [.drop .dropSync1, .sync0Hit]) ∧
    (t.out ≠ s.out ↔ Label.emit ∈ t.labels)

/-- A step emits nothing, or FRAME_OUT and then one event that is no FRAME_OUT, and leaves what was emitted before (R37,
R261, R263). That the operation RESET, too, leaves the trace is the model's reading: DEDUCED, log 3 (R280's table lists the
trace as empty after RESET); the steps include the model's own sendCommand (log 12) and the idle step (log 2). -/
def Obligations.TraceGrowsByWholeFrames : Prop :=
  ∀ s t : State, step s = .next t →
    t.out = s.out ∨ ∃ fid bytes e, t.out = s.out ++ [.frameOut fid bytes, e] ∧ ∀ g bs, e ≠ .frameOut g bs

/-- No step changes the catalog (R30, R284). -/
def Obligations.CatalogNeverChanges : Prop :=
  ∀ s t : State, step s = .next t → t.cat = s.cat

/-- A discard is silent, empties the candidate, and leaves the machine in SYNC0, or in SYNC1 with the re-examined byte
(R252, R253). -/
def Obligations.DiscardIsSilent : Prop :=
  ∀ (s t : State) (b : Byte) (c : Cause) (ops : List Op), s.input = .feedByte b :: ops → step s = .next t →
    Label.drop c ∈ t.labels →
    t.out = s.out ∧ ((t.st = .sync0 ∧ t.cnt = 0) ∨
      (c = .dropSync1 ∧ t.st = .sync1 ∧ t.cnt = 1 ∧ t.candidate = some [b] ∧ s.cat.inFirst b = true))

/-- FEED of two chunks is FEED of their concatenation (R164); and queued bytes run to the same end as FEED of them. -/
def Obligations.ChunkingIsUnobservable : Prop :=
  (∀ (xs ys : List Byte) (s t : State), feed xs s = .next t → feed (xs ++ ys) s = feed ys t) ∧
  (∀ (xs : List Byte) (ops : List Op) (s t : State), s.cat.wf = true → s.input = xs.map .feedByte ++ ops →
    feed xs { s with input := ops } = .next t → Host.Core.run Sys2Proof.core xs.length s = Host.Outcome.next t)

/-- Round trip: a valid frame met in SYNC0 is emitted, with its handler's event, on its last byte and not before, and the
machine ends in SYNC0 with nothing buffered (R168, R171). -/
def Obligations.ValidFrameIsEmitted : Prop :=
  ∀ (s : State) (fid : FormatId) (f : Frame), s.inv = true → s.st = .sync0 → validFrame s.cat fid f →
    (∃ t e, feed f.bytes s = .next t ∧ handlerEvent s.cat fid f = some e ∧
      t.out = s.out ++ [.frameOut fid f.bytes, e] ∧ t.st = .sync0 ∧ t.cnt = 0 ∧ t.inv = true) ∧
    (∀ k, k < f.bytes.length → ∃ u, feed (f.bytes.take k) s = .next u ∧ u.out = s.out)

/-- The events of a list of frames under a catalog, in order. -/
def eventsOf (cat : Catalog) (frames : List (FormatId × Frame)) : List Event :=
  frames.flatMap fun p => .frameOut p.1 p.2.bytes :: (handlerEvent cat p.1 p.2).toList

/-- Any number of valid frames back to back are all emitted, in order, and nothing else (R168, R293). -/
def Obligations.BackToBackFramesAreAllEmitted : Prop :=
  ∀ (s : State) (frames : List (FormatId × Frame)), s.inv = true → s.st = .sync0 →
    (∀ p ∈ frames, validFrame s.cat p.1 p.2) →
    ∃ t, feed (frames.flatMap fun p => p.2.bytes) s = .next t ∧ t.out = s.out ++ eventsOf s.cat frames ∧
      t.st = .sync0 ∧ t.cnt = 0

/-- Soundness: every emitted frame is a contiguous part of the input and a valid frame for the catalog (R169). -/
def Obligations.EmittedFramesAreValidInput : Prop :=
  ∀ (s t : State) (xs : List Byte) (es : List Event) (fid : FormatId) (bytes : List Byte), s.inv = true →
    s.st = .sync0 → feed xs s = .next t → t.out = s.out ++ es → Event.frameOut fid bytes ∈ es →
    bytes <:+: xs ∧ ∃ f : Frame, f.bytes = bytes ∧ validFrame s.cat fid f

/-- No hunting inside a frame: in ACCUM any bytes short of the resolved length are swallowed, whatever they are (R166,
R290). -/
def Obligations.AccumSwallowsAnyBytes : Prop :=
  ∀ (s : State) (bs xs : List Byte), s.inv = true → s.st = .accum → s.candidate = some bs →
    s.cnt + xs.length < s.len →
    ∃ t, feed xs s = .next t ∧ t.st = .accum ∧ t.cnt = s.cnt + xs.length ∧ t.candidate = some (bs ++ xs) ∧
      t.out = s.out ∧ t.fam = s.fam ∧ t.fmt = s.fmt ∧ t.len = s.len

/-- A stuttered first sync byte does not lose alignment: `s s t` is framed from the second `s` (R293). -/
def Obligations.StutteredSyncIsFramed : Prop :=
  ∀ (s : State) (F : Family), s.inv = true → s.st = .sync0 → F ∈ s.cat.families →
    s.cat.familyOf F.sync0 F.sync0 = none →
    ∃ t, feed [F.sync0, F.sync0, F.sync1] s = .next t ∧ t.st = .header ∧ t.cnt = 2 ∧
      t.candidate = some [F.sync0, F.sync1] ∧ t.cat.families[t.fam]? = some F ∧ t.out = s.out

/-- An ill-formed catalog is refused before any step (R12, U2); `CAT_DEFAULT` is well-formed (R108). In
two points the reading of R12 is the model's own: no model code twice (R9's "map") and no FOLD16 for an INFO format (W5);
DEDUCED, log 9. -/
def Obligations.IllFormedCatalogIsRefused : Prop :=
  (∀ s : State, s.cat.wf = false → step s = .refused .illFormedCatalog) ∧ catDefault.wf = true

/-- With a well-formed catalog every family whose header can resolve to a format has `HDR_LEN < BUF_SIZE`, as R257 (a)
says; a MODEL family with empty ENTRIES is not bounded by W1 to W7, and its header faults at the first byte that has no
address in the buffer, where R257 (a) derives that there is none (log 9). -/
def Obligations.HeadersFitOrFault : Prop :=
  (∀ (cat : Catalog) (F : Family) (m0 m1 : Byte) (fid : FormatId) (len : Nat), cat.wf = true → F ∈ cat.families →
    cat.resolve F m0 m1 = .format fid len → F.hdrLen < cat.bufSize) ∧
  (∀ cat : Catalog, cat.wf = true → (∀ F ∈ cat.families, F.mode ≠ .model []) → cat.headersFit = true) ∧
  (∀ (s : State) (b : Byte) (F : Family) (ops : List Op), s.cat.wf = true → s.st = .header →
    s.input = .feedByte b :: ops → s.cat.families[s.fam]? = some F → s.cat.bufSize ≤ s.cnt →
    step s = .fault .bufferOverflow)

/-! ## The buffer as a memory -/

/-- The append reads back at its offset, leaves every earlier offset as it was, keeps the canonical form, and nothing at
or above `cnt` is readable (R24, R55). -/
def Obligations.AppendIsReadBack : Prop :=
  ∀ (s t : State) (b : Byte), s.append b = some t →
    t.cnt = s.cnt + 1 ∧ t.read s.cnt = some b ∧ (∀ k, k < s.cnt → t.read k = s.read k) ∧
    (∀ k, s.cnt < k → t.read k = none) ∧ (∀ k, k ≠ s.cnt → lookupCell t.buf k = lookupCell s.buf k) ∧
    (Memory.wf s.buf = true → Memory.wf t.buf = true)

/-- Little-endian 16-bit reads, of exactly the two bytes at the offset and the one after it (R52). -/
def Obligations.WordReadIsLittleEndian : Prop :=
  ∀ (f : List Byte) (off : Nat) (w : Word),
    u16le f off = some w ↔ ∃ lo hi, f[off]? = some lo ∧ f[off + 1]? = some hi ∧ w.toNat = lo.toNat ||| hi.toNat <<< 8

/-! ## The handlers -/

/-- Distance: 0 where bit 15 of the raw field is set, else the raw value; never above 32767 (R226). -/
def Obligations.DistanceSentinelDecodesToZero : Prop :=
  (∀ (cat : Catalog) (fid : FormatId) (d : PcLayout) (f : List Byte) (batch : Batch) (p : Point),
    decodePoints cat fid d f = some batch → p ∈ batch.points →
    p.distanceMm = (if p.distRaw.toNat < 0x8000 then p.distRaw.toNat else 0) ∧ p.distanceMm ≤ 32767) ∧
  distanceMm 0x8005 = 0 ∧ distanceMm 0x7FFF = 32767 ∧ distanceMm 0x8000 = 0 ∧ distanceMm 0xFFFF = 0 ∧
  distanceMm 0x0000 = 0

/-- fmod360 is the floored modulus into [0, 360) (R229). -/
def Obligations.Fmod360IsFlooredModulus : Prop :=
  (∀ x : Rat, 0 ≤ fmod360 x ∧ fmod360 x < 360 ∧ fmod360 x = x - 360 * (⌊x / 360⌋ : Rat)) ∧
  fmod360 (-1) = 359 ∧ fmod360 360 = 0 ∧ fmod360 (725 / 2) = 5 / 2

/-- The points run from `first_angle/U` to `last_angle/U` modulo 360 in equal steps; with at most one point the step is 0
(R225, R228, R230). -/
def Obligations.AnglesRunFromFirstToLast : Prop :=
  ∀ (d : PcLayout) (first last : Int), 0 < d.u →
    (d.n ≤ 1 → angleDiffer d first last = 0 ∧ ∀ j, pointAngle d first last j = fmod360 ((first : Rat) / d.u)) ∧
    (2 ≤ d.n →
      pointAngle d first last 0 = fmod360 ((first : Rat) / d.u) ∧
      pointAngle d first last (d.n - 1) = fmod360 ((last : Rat) / d.u) ∧
      ∀ j : Nat, pointAngle d first last j =
        fmod360 (((first : Rat) * (d.n - 1) + angleSpan d first last * j) / ((d.n - 1) * d.u)))

/-- The shape and the ranges of a batch (R222, R232, R234, and R233 except the lower bound it derives for `span`: by R225
a `last_angle` more than 360*U below `first_angle` gives a negative span; log 24). -/
def Obligations.BatchIsInRange : Prop :=
  ∀ (cat : Catalog) (fid : FormatId) (d : PcLayout) (f : List Byte) (batch : Batch), cat.round = .identity →
    d.bias = 0xA000 → decodePoints cat fid d f = some batch →
    batch.fmt = fid ∧ batch.points.length = d.n ∧
    -40960 ≤ batch.firstAngle ∧ batch.firstAngle ≤ 24575 ∧ -40960 ≤ batch.lastAngle ∧ batch.lastAngle ≤ 24575 ∧
    (angleSpan d batch.firstAngle batch.lastAngle < 0 ↔ batch.lastAngle + 360 * d.u < batch.firstAngle) ∧
    angleSpan d batch.firstAngle batch.lastAngle ≤ 65535 + 360 * d.u ∧
    ∀ (j : Nat) (p : Point), batch.points[j]? = some p →
      p.index = j ∧ p.isWrap = false ∧ p.speedRpm = batch.speedRpm ∧ 0 ≤ p.angleDeg ∧ p.angleDeg < 360 ∧
      p.distanceMm ≤ 32767 ∧ (d.qkind = .none → p.qualityRaw = 0) ∧ (d.qkind = .u8 → p.qualityRaw.toNat ≤ 255)

/-! ## The frame formats -/

/-- The batch R220 to R232 give for the fields of a point-cloud frame under `CAT_DEFAULT`, spelled out. -/
def spelledBatch (fid : FormatId) (u : Nat) (rpm qScale : Rat) (speed first last : Word) (pts : List (Word × Word)) :
    Batch :=
  let span : Int :=
    if first.toNat ≤ last.toNat then (last.toNat : Int) - first.toNat else (last.toNat : Int) + 360 * u - first.toNat
  let differ : Rat := span / (pts.length - 1) / u
  { fmt := fid, speedRaw := speed, speedRpm := speed.toNat * rpm, firstAngle := (first.toNat : Int) - 40960,
    lastAngle := (last.toNat : Int) - 40960, angleDiffer := differ,
    points := pts.zipIdx.map fun x =>
      { index := x.2, angleDeg := fmod360 (((first.toNat : Rat) - 40960) / u + differ * x.2), distRaw := x.1.1,
        distanceMm := if x.1.1.toNat < 32768 then x.1.1.toNat else 0, qualityRaw := x.1.2,
        quality := x.1.2.toNat * qScale, speedRpm := speed.toNat * rpm, isWrap := false } }

/-- A point-cloud format of `CAT_DEFAULT`, for every value of every field: its bytes decode to its instruction, and exec
emits the frame and the spelled batch where the checksum field is accepted and discards silently where not. What the
registers hold after an emission is the model's choice (log 27). -/
def pcFormatRule (mk : Frame → Instr) (fid : FormatId) (m0 m1 : Byte) (q : QKind) (n u : Nat) (rpm qScale : Rat)
    (width : Nat) (accepts : List Byte → List Byte → Prop) : Prop :=
  ∀ (speed first last : Word) (pts : List (Word × Word)) (field : List Byte), pts.length = n →
    (∀ p ∈ pts, (q = .none → p.2 = 0) ∧ (q = .u8 → p.2.toNat < 256)) → field.length = width →
    ∃ f : Frame, ∃ g : List Byte,
      g = [0x55, 0xAA, m0, m1] ++ wordBytes speed ++ wordBytes first ++ pts.flatMap (pointBytes q) ++ wordBytes last ∧
      f.bytes = g ++ field ∧ decode catDefault f.bytes = .ok (mk f, []) ∧
      ∀ s : State, s.cat = catDefault →
        (accepts g field → exec (mk f) s = .next (s.emit
          [.frameOut fid (g ++ field), .pointsOut (spelledBatch fid u rpm qScale speed first last pts)])) ∧
        (¬ accepts g field → exec (mk f) s = .next (s.discard .dropCksum))

/-- NormalNoQuality (R102, R191). -/
def Obligations.NormalNoQualityRule : Prop :=
  pcFormatRule .normalNoQuality .normalNoQuality 0x01 0x08 .none 8 64 (1 / 64) 0 2
    fun g c => (fold16 g).map wordBytes = some c

/-- NormalQuality (R103, R192). -/
def Obligations.NormalQualityRule : Prop :=
  pcFormatRule .normalQuality .normalQuality 0x03 0x08 .u8 8 64 (1 / 64) 1 2
    fun g c => (fold16 g).map wordBytes = some c

/-- YwQuality: quality is raw/48, exact (R104, R193). -/
def Obligations.YwQualityRule : Prop :=
  pcFormatRule .ywQuality .ywQuality 0x04 0x08 .u8 8 64 (1 / 64) (1 / 48) 2
    fun g c => (fold16 g).map wordBytes = some c

/-- FsTestQuality (R105, R194). -/
def Obligations.FsTestQualityRule : Prop :=
  pcFormatRule .fsTestQuality .fsTestQuality 0x05 0x08 .u16 8 64 (1 / 64) 1 1
    fun g c => (crc8 catDefault g).map (fun r => [r]) = some c

/-- T10Quality: U = 100, speed raw/6, the whole frame's CRC-8 is the residue (R106, R195). -/
def Obligations.T10QualityRule : Prop :=
  pcFormatRule .t10Quality .t10Quality 0x06 0x0C .u8 12 100 (1 / 6) 1 1
    fun g c => crc8 catDefault (g ++ c) = some 0x00

/-- An info or fault format of `CAT_DEFAULT`, for every `cmd`, payload and checksum byte: its bytes decode to its
instruction, and exec emits the frame and its record where the byte is the ADD8 of the bytes before it and discards
silently where not. What the registers hold after an emission is the model's choice (log 27). -/
def infoFormatRule (mk : Frame → Instr) (fid : FormatId) (s0 s1 : Byte) : Prop :=
  ∀ (code sum : Byte) (payload : List Byte), payload.length ≤ 255 →
    ∃ f : Frame, ∃ g : List Byte,
      g = s0 :: s1 :: code :: BitVec.ofNat 8 payload.length :: payload ∧
      f.bytes = g ++ [sum] ∧ decode catDefault f.bytes = .ok (mk f, []) ∧
      ∀ s : State, s.cat = catDefault →
        (sum = add8 g → exec (mk f) s = .next (s.emit
          [.frameOut fid (g ++ [sum]),
           .infoOut { fmt := fid, cmd := code, payloadLen := BitVec.ofNat 8 payload.length, payload := payload }])) ∧
        (sum ≠ add8 g → exec (mk f) s = .next (s.discard .dropCksum))

/-- ErrorFault (R107, R196). -/
def Obligations.ErrorFaultRule : Prop := infoFormatRule .errorFault .errorFault 0xA5 0xEE

/-- UpBoardInfo (R107, R197). -/
def Obligations.UpBoardInfoRule : Prop := infoFormatRule .upBoardInfo .upBoardInfo 0xA5 0x5A

/-- DownBoardInfo (R107, R198). -/
def Obligations.DownBoardInfoRule : Prop := infoFormatRule .downBoardInfo .downBoardInfo 0x5A 0xA5

/-- For every well-formed catalog and every well-formed frame, exec of an inbound format completes: the frame and its
handler's event, or the silent discard (R86, R163, R190). What the registers hold after an emission is the model's choice
(log 27). -/
def Obligations.InboundFormatsComplete : Prop :=
  ∀ (i : Instr) (fid : FormatId) (f : Frame) (s : State), i.inbound = some (fid, f) → s.cat.wf = true →
    i.wf s.cat = true →
    ∃ ok e, validate s.cat (s.cat.format fid).cks f.bytes = .next ok ∧ handlerEvent s.cat fid f = some e ∧
      exec i s = .next (if ok then s.emit [.frameOut fid f.bytes, e] else s.discard .dropCksum)

/-- What an inbound format leaves unchanged: the catalog, `fam`, `fmt`, `len`, every byte of the buffer, the issued
operations and the command frames; the candidate is empty, so no byte is readable (R163, R253). That an emission, too,
keeps the bits of `fam`, `fmt`, `len` and the buffer is the model's choice (log 27). -/
def Obligations.InboundFormatsFrame : Prop :=
  ∀ (i : Instr) (fid : FormatId) (f : Frame) (s t : State), i.inbound = some (fid, f) → exec i s = .next t →
    t.cat = s.cat ∧ t.fam = s.fam ∧ t.fmt = s.fmt ∧ t.len = s.len ∧ t.input = s.input ∧ t.commands = s.commands ∧
    (∀ k, lookupCell t.buf k = lookupCell s.buf k) ∧ t.st = .sync0 ∧ t.cnt = 0 ∧ (∀ k, t.read k = none) ∧
    (t.out = s.out ∨ ∃ e, t.out = s.out ++ [.frameOut fid f.bytes, e])

/-- CMD: the command frame is built from `cmd` and payload with its length byte and its ADD8, and nothing of the block
changes; (R199). That the built frame is kept in `commands` (DESIGN CHOICE) and that a payload of more than 255 bytes is
refused (DEDUCED: R199 gives the length one byte and names no refusal) is the model's (log 12). -/
def Obligations.CommandFrameIsBuilt : Prop :=
  ∀ (code : Byte) (payload : List Byte) (s : State),
    (payload.length ≤ 255 → ∃ g : List Byte,
      g = s.cat.cmdSync0 :: s.cat.cmdSync1 :: code :: BitVec.ofNat 8 payload.length :: payload ∧
      (g ++ [add8 g]).length = payload.length + 5 ∧
      exec (.cmd code payload) s = .next { s with commands := s.commands ++ [g ++ [add8 g]] }) ∧
    (255 < payload.length → exec (.cmd code payload) s = .refused .payloadTooLong)

/-- Under `CAT_DEFAULT` a command frame received by the block is a valid UpBoardInfo frame, and is emitted as one (R197,
R199, D33). -/
def Obligations.CommandFrameIsUpBoardInfo : Prop :=
  ∀ (code : Byte) (payload : List Byte) (s : State), payload.length ≤ 255 → s.inv = true → s.cat = catDefault →
    s.st = .sync0 →
    ∃ t, feed (commandFrame catDefault code payload) s = .next t ∧ t.st = .sync0 ∧ t.cnt = 0 ∧
      t.out = s.out ++ [.frameOut .upBoardInfo (commandFrame catDefault code payload),
        .infoOut { fmt := .upBoardInfo, cmd := code, payloadLen := BitVec.ofNat 8 payload.length, payload := payload }]

/-- What the builder PCFRAME makes for a format of `CAT_DEFAULT` with `N` points is emitted unchanged on its last byte,
and the batch carries the raw fields it was built from (R111, R168). -/
def Obligations.BuiltPointFrameIsEmitted : Prop :=
  ∀ (fid : FormatId) (d : PcLayout) (speed first last : Word) (pts : List (Word × Word)) (s : State),
    (catDefault.format fid).kind = .pc d → pts.length = d.n →
    (∀ p ∈ pts, (d.qkind = .none → p.2 = 0) ∧ (d.qkind = .u8 → p.2.toNat < 256)) →
    s.inv = true → s.cat = catDefault → s.st = .sync0 →
    ∃ bs batch t, pcFrame catDefault fid speed first pts last = some bs ∧ feed bs s = .next t ∧
      t.out = s.out ++ [.frameOut fid bs, .pointsOut batch] ∧ t.st = .sync0 ∧ t.cnt = 0 ∧
      batch.fmt = fid ∧ batch.speedRaw = speed ∧ batch.firstAngle = (first.toNat : Int) - 40960 ∧
      batch.lastAngle = (last.toNat : Int) - 40960 ∧ (batch.points.map fun p => (p.distRaw, p.qualityRaw)) = pts
end

