-- ==== Sys2Proof/Laws/Catalog.lean ====
section
/-! SUPPORT. What a well-formed catalog gives: FIRST, PAIRS and family_of (R17), the length resolution (R87, R88), and the
frame's four parts as bytes (R80). -/

namespace Sys2Proof

/-! ## family_of -/

theorem findFamily_spec {a b : Byte} {F : Family} {j : Nat} : ∀ {Fs : List Family} {i : Nat},
    findFamily a b i Fs = some (j, F) → ∃ k, j = i + k ∧ Fs[k]? = some F ∧ F.sync0 = a ∧ F.sync1 = b := by
  intro Fs
  induction Fs with
  | nil => intro i h; cases h
  | cons G Gs ih =>
    intro i h
    unfold findFamily at h
    split_ifs at h with hp
    · cases h; exact ⟨0, rfl, rfl, hp⟩
    · obtain ⟨k, rfl, hk, hp'⟩ := ih h
      exact ⟨k + 1, by omega, by simpa using hk, hp'⟩

/-- `family_of(a, b)` is a family with that pair, at its index (R17). -/
theorem familyOf_spec {cat : Catalog} {a b : Byte} {j : Nat} {F : Family} (h : cat.familyOf a b = some (j, F)) :
    cat.families[j]? = some F ∧ F.sync0 = a ∧ F.sync1 = b := by
  obtain ⟨k, rfl, hk, hp⟩ := findFamily_spec h
  exact ⟨by simpa using hk, hp⟩

theorem familyOf_mem {cat : Catalog} {a b : Byte} {j : Nat} {F : Family} (h : cat.familyOf a b = some (j, F)) :
    F ∈ cat.families :=
  List.mem_of_getElem? (familyOf_spec h).1

theorem findFamily_index {F : Family} : ∀ {Fs : List Family} {i k : Nat}, (familyPairs Fs).Nodup →
    Fs[k]? = some F → findFamily F.sync0 F.sync1 i Fs = some (i + k, F) := by
  intro Fs
  induction Fs with
  | nil => intro i k _ h; simp at h
  | cons G Gs ih =>
    intro i k hn h
    simp only [familyPairs, List.map_cons, List.nodup_cons] at hn
    unfold findFamily
    cases k with
    | zero => simp at h; subst h; simp
    | succ k =>
      simp only [List.getElem?_cons_succ] at h
      have hne : ¬ (G.sync0 = F.sync0 ∧ G.sync1 = F.sync1) := by
        rintro ⟨h0, h1⟩
        exact hn.1 (List.mem_map.2 ⟨F, List.mem_of_getElem? h, by rw [h0, h1]⟩)
      rw [if_neg hne, ih hn.2 h]
      congr 2; omega

/-- A first byte of a family is in FIRST (R17). -/
theorem inFirst_of_mem {cat : Catalog} {F : Family} (h : F ∈ cat.families) : cat.inFirst F.sync0 = true :=
  List.any_eq_true.2 ⟨F, h, by simp⟩

theorem inFirst_of_familyOf {cat : Catalog} {a b : Byte} {j : Nat} {F : Family}
    (h : cat.familyOf a b = some (j, F)) : cat.inFirst a = true := by
  have := inFirst_of_mem (familyOf_mem h)
  rwa [(familyOf_spec h).2.1] at this

/-! ## Well-formed catalogs -/

theorem wf_pairs {cat : Catalog} (h : cat.wf = true) : (familyPairs cat.families).Nodup := by
  simp only [Catalog.wf, Catalog.pairsOk, Bool.and_eq_true, decide_eq_true_eq] at h
  exact h.1.1.1.1.2

theorem wf_table {cat : Catalog} (h : cat.wf = true) : cat.crc8Table.length = 256 := by
  simp only [Catalog.wf, Catalog.tableOk, Bool.and_eq_true, decide_eq_true_eq] at h
  exact h.2

theorem wf_format {cat : Catalog} (h : cat.wf = true) (fid : FormatId) : (cat.format fid).ok = true := by
  simp only [Catalog.wf, Bool.and_eq_true, List.all_eq_true] at h
  exact h.1.2 fid (by cases fid <;> decide)

theorem wf_header {cat : Catalog} (h : cat.wf = true) {F : Family} (hF : F ∈ cat.families) :
    3 ≤ F.hdrLen := by
  simp only [Catalog.wf, Bool.and_eq_true, List.all_eq_true] at h
  have h2 := h.1.1.1.2 F hF
  unfold Family.headerOk at h2
  split at h2 <;> simp only [decide_eq_true_eq] at h2 <;> omega

theorem headersFit_iff {cat : Catalog} : cat.headersFit = true ↔ ∀ F ∈ cat.families, F.hdrLen ≤ cat.bufSize := by
  simp [Catalog.headersFit]

theorem wf_family {cat : Catalog} (h : cat.wf = true) {F : Family} (hF : F ∈ cat.families) : cat.familyOk F = true := by
  simp only [Catalog.wf, Bool.and_eq_true, List.all_eq_true] at h
  exact h.1.1.2 F hF

/-- With a well-formed catalog the pair selects its family and its index (R17, W1). -/
theorem familyOf_index {cat : Catalog} (h : cat.wf = true) {k : Nat} {F : Family} (hk : cat.families[k]? = some F) :
    cat.familyOf F.sync0 F.sync1 = some (k, F) := by
  simpa [Catalog.familyOf] using findFamily_index (i := 0) (wf_pairs h) hk

theorem lookupModel_mem {m0 m1 : Byte} {fid : FormatId} : ∀ {es : List ModelEntry},
    lookupModel m0 m1 es = some fid → ∃ e ∈ es, e.m0 = m0 ∧ e.m1 = m1 ∧ e.fmt = fid := by
  intro es
  induction es with
  | nil => intro h; cases h
  | cons e es ih =>
    intro h
    unfold lookupModel at h
    split_ifs at h with hp
    · cases h; exact ⟨e, List.mem_cons_self .., hp.1, hp.2, rfl⟩
    · obtain ⟨e', he, h'⟩ := ih h
      exact ⟨e', List.mem_cons_of_mem _ he, h'⟩

/-- What a resolved header gives with a well-formed catalog: the format's kind follows the family's mode, the length is in
range, and header and checksum field fit in it (W3, W4, W5, W6). -/
theorem wf_resolve {cat : Catalog} (h : cat.wf = true) {F : Family} (hF : F ∈ cat.families) {m0 m1 : Byte}
    {fid : FormatId} {len : Nat} (hr : cat.resolve F m0 m1 = .format fid len) :
    F.hdrLen < len ∧ len ≤ cat.bufSize ∧ F.hdrLen + (cat.format fid).cks.width ≤ len ∧
      (∀ d, (cat.format fid).kind = .pc d → d.len = len) := by
  have hf := wf_family h hF
  have hok := wf_format h fid
  unfold Catalog.resolve at hr
  unfold Catalog.familyOk at hf
  split at hr
  · rename_i entries hm
    simp only [hm, Bool.and_eq_true, List.all_eq_true, decide_eq_true_eq] at hf
    split at hr
    · cases hr
    · rename_i fid' hl
      obtain ⟨e, he, -, -, rfl⟩ := lookupModel_mem hl
      have hent := hf.2 e he
      unfold Catalog.entryOk at hent
      split at hr
      · rename_i d hk
        cases hr
        simp only [hk, Bool.and_eq_true, decide_eq_true_eq] at hent
        simp only [FormatRecord.ok, hk, Bool.and_eq_true, decide_eq_true_eq] at hok
        refine ⟨by omega, by omega, by omega, ?_⟩
        intro d' hd'; rw [hk] at hd'; cases hd'; rfl
      · cases hr
  · rename_i fid' ov hm
    simp only [hm, Bool.and_eq_true, decide_eq_true_eq] at hf
    cases hr
    have hb := m1.isLt
    have hw : (cat.format fid).cks.width = 1 := by
      simp only [FormatRecord.ok, hf.1.1, decide_eq_true_eq] at hok
      cases hc : (cat.format fid).cks <;> simp_all [CksKind.width]
    refine ⟨by omega, by omega, by omega, ?_⟩
    intro d hd; rw [hf.1.1] at hd; cases hd

/-- With a well-formed catalog a model code never selects a format without a length (W3). -/
theorem wf_resolve_ne_noLength {cat : Catalog} (h : cat.wf = true) {F : Family} (hF : F ∈ cat.families) {m0 m1 : Byte} :
    cat.resolve F m0 m1 ≠ .noLength := by
  have hf := wf_family h hF
  intro hr
  unfold Catalog.resolve at hr
  unfold Catalog.familyOk at hf
  split at hr
  · rename_i entries hm
    simp only [hm, Bool.and_eq_true, List.all_eq_true, decide_eq_true_eq] at hf
    split at hr
    · cases hr
    · rename_i fid' hl
      obtain ⟨e, he, -, -, rfl⟩ := lookupModel_mem hl
      have hent := hf.2 e he
      unfold Catalog.entryOk at hent
      split at hr
      · cases hr
      · rename_i hk
        simp [hk] at hent
  · cases hr

/-! ## Frames as bytes -/

theorem frame_bytes_length (f : Frame) : f.bytes.length = f.hdrLen + f.body.length + f.cks.length := by
  simp only [Frame.bytes, Frame.hdrLen, List.length_cons, List.length_append]; omega

/-- Splitting the bytes of a frame gives the frame back (R80). -/
theorem splitFrame_of_bytes (f : Frame) : splitFrame f.hdrLen f.cks.length f.bytes = some f := by
  have h0 : f.header.length + 2 + f.cks.length ≤ (f.header ++ f.body ++ f.cks).length + 2 := by
    simp only [List.length_append]; omega
  have h1 : (f.header ++ f.body ++ f.cks).length - f.cks.length = (f.header ++ f.body).length := by
    rw [List.length_append, Nat.add_sub_cancel]
  have h2 : 2 ≤ f.header.length + 2 := by omega
  simp only [splitFrame, Frame.bytes, Frame.hdrLen, h0, h2, and_self, if_true, Nat.add_sub_cancel, h1, List.take_left, List.drop_left]
  rw [List.append_assoc, List.take_left]

/-- The parts of split bytes are the bytes (R80). -/
theorem splitFrame_bytes {h w : Nat} {bs : List Byte} {f : Frame} (hs : splitFrame h w bs = some f) :
    f.bytes = bs ∧ f.hdrLen = h ∧ f.cks.length = w ∧ 2 ≤ h ∧ h + w ≤ bs.length := by
  unfold splitFrame at hs
  split at hs
  · rename_i a b rest
    split_ifs at hs with hl
    obtain ⟨h2, hl⟩ := hl
    cases hs
    refine ⟨?_, ?_, ?_, h2, hl⟩
    · have e1 : (rest.take (rest.length - w)).take (h - 2) = rest.take (h - 2) := by
        rw [List.take_take]; congr 1; omega
      have e2 := List.take_append_drop (h - 2) (rest.take (rest.length - w))
      rw [e1] at e2
      simp only [Frame.bytes, e2, List.take_append_drop]
    · simp only [Frame.hdrLen, List.length_take]; omega
    · simp only [List.length_drop]; omega
  · cases hs

theorem splitFrame_sync {h w : Nat} {a b : Byte} {rest : List Byte} (h2 : 2 ≤ h) (hl : h + w ≤ rest.length + 2) :
    ∃ f, splitFrame h w (a :: b :: rest) = some f ∧ f.sync0 = a ∧ f.sync1 = b :=
  ⟨_, if_pos ⟨h2, hl⟩, rfl, rfl⟩

/-- What COMPLETE hands on is the buffered bytes, none added and none lost (R56, R162). -/
theorem split_bytes {cat : Catalog} {fid : FormatId} {bs : List Byte} {f : Frame} (h : cat.split fid bs = some f) :
    f.bytes = bs := by
  unfold Catalog.split at h
  split at h
  · split at h
    · cases h
    · exact (splitFrame_bytes h).1
  · cases h

@[simp] theorem inbound_ofFormat (fid : FormatId) (f : Frame) : (Instr.ofFormat fid f).inbound = some (fid, f) := by
  cases fid <;> rfl

theorem ofFormat_of_inbound {i : Instr} {fid : FormatId} {f : Frame} (h : i.inbound = some (fid, f)) :
    i = .ofFormat fid f := by
  cases i <;> simp_all [Instr.inbound] <;> obtain ⟨rfl, rfl⟩ := h <;> rfl

@[simp] theorem encode_ofFormat (cat : Catalog) (fid : FormatId) (f : Frame) :
    encode cat (.ofFormat fid f) = f.bytes := by
  cases fid <;> rfl

@[simp] theorem wf_ofFormat (cat : Catalog) (fid : FormatId) (f : Frame) :
    (Instr.ofFormat fid f).wf cat = f.wf cat fid := by
  cases fid <;> rfl

/-- What the encoding admits of a frame, as facts (R80 to R83). -/
theorem frame_wf_iff {cat : Catalog} {fid : FormatId} {f : Frame} :
    f.wf cat fid = true ↔ ∃ j F m0 m1, cat.familyOf f.sync0 f.sync1 = some (j, F) ∧ f.hdrLen = F.hdrLen ∧
      f.cks.length = (cat.format fid).cks.width ∧ cat.lengthOk F f.bytes.length = true ∧
      f.bytes[F.hdrLen - 2]? = some m0 ∧ f.bytes[F.hdrLen - 1]? = some m1 ∧
      cat.resolve F m0 m1 = .format fid f.bytes.length := by
  unfold Frame.wf
  constructor
  · intro h
    split at h
    · cases h
    · rename_i j F hj
      simp only [Bool.and_eq_true, decide_eq_true_eq] at h
      obtain ⟨⟨⟨h1, h2⟩, h3⟩, h4⟩ := h
      split at h4
      · rename_i m0 m1 hm0 hm1
        exact ⟨j, F, m0, m1, hj, h1, h2, h3, hm0, hm1, by simpa using h4⟩
      · cases h4
  · rintro ⟨j, F, m0, m1, hj, h1, h2, h3, hm0, hm1, h4⟩
    simp [hj, h1, h2, h3, hm0, hm1, h4]

end Sys2Proof
end

