-- ==== Sys2Proof/Laws/State.lean ====
section
/-! SUPPORT. What each update of State does to each field, so that no proof unfolds a record update. -/

namespace Sys2Proof.Machine

@[simp] theorem State.label_cat (s : State) (l : Label) : (s.label l).cat = s.cat := rfl
@[simp] theorem State.label_st (s : State) (l : Label) : (s.label l).st = s.st := rfl
@[simp] theorem State.label_cnt (s : State) (l : Label) : (s.label l).cnt = s.cnt := rfl
@[simp] theorem State.label_buf (s : State) (l : Label) : (s.label l).buf = s.buf := rfl
@[simp] theorem State.label_fam (s : State) (l : Label) : (s.label l).fam = s.fam := rfl
@[simp] theorem State.label_fmt (s : State) (l : Label) : (s.label l).fmt = s.fmt := rfl
@[simp] theorem State.label_len (s : State) (l : Label) : (s.label l).len = s.len := rfl
@[simp] theorem State.label_out (s : State) (l : Label) : (s.label l).out = s.out := rfl
@[simp] theorem State.label_input (s : State) (l : Label) : (s.label l).input = s.input := rfl
@[simp] theorem State.label_commands (s : State) (l : Label) : (s.label l).commands = s.commands := rfl
@[simp] theorem State.label_labels (s : State) (l : Label) : (s.label l).labels = s.labels ++ [l] := rfl

@[simp] theorem State.discard_cat (s : State) (c : Cause) : (s.discard c).cat = s.cat := rfl
@[simp] theorem State.discard_st (s : State) (c : Cause) : (s.discard c).st = .sync0 := rfl
@[simp] theorem State.discard_cnt (s : State) (c : Cause) : (s.discard c).cnt = 0 := rfl
@[simp] theorem State.discard_buf (s : State) (c : Cause) : (s.discard c).buf = s.buf := rfl
@[simp] theorem State.discard_fam (s : State) (c : Cause) : (s.discard c).fam = s.fam := rfl
@[simp] theorem State.discard_fmt (s : State) (c : Cause) : (s.discard c).fmt = s.fmt := rfl
@[simp] theorem State.discard_len (s : State) (c : Cause) : (s.discard c).len = s.len := rfl
@[simp] theorem State.discard_out (s : State) (c : Cause) : (s.discard c).out = s.out := rfl
@[simp] theorem State.discard_input (s : State) (c : Cause) : (s.discard c).input = s.input := rfl
@[simp] theorem State.discard_commands (s : State) (c : Cause) : (s.discard c).commands = s.commands := rfl
@[simp] theorem State.discard_labels (s : State) (c : Cause) : (s.discard c).labels = s.labels ++ [.drop c] := rfl

@[simp] theorem State.emit_cat (s : State) (es : List Event) : (s.emit es).cat = s.cat := rfl
@[simp] theorem State.emit_st (s : State) (es : List Event) : (s.emit es).st = .sync0 := rfl
@[simp] theorem State.emit_cnt (s : State) (es : List Event) : (s.emit es).cnt = 0 := rfl
@[simp] theorem State.emit_buf (s : State) (es : List Event) : (s.emit es).buf = s.buf := rfl
@[simp] theorem State.emit_fam (s : State) (es : List Event) : (s.emit es).fam = s.fam := rfl
@[simp] theorem State.emit_fmt (s : State) (es : List Event) : (s.emit es).fmt = s.fmt := rfl
@[simp] theorem State.emit_len (s : State) (es : List Event) : (s.emit es).len = s.len := rfl
@[simp] theorem State.emit_out (s : State) (es : List Event) : (s.emit es).out = s.out ++ es := rfl
@[simp] theorem State.emit_input (s : State) (es : List Event) : (s.emit es).input = s.input := rfl
@[simp] theorem State.emit_commands (s : State) (es : List Event) : (s.emit es).commands = s.commands := rfl
@[simp] theorem State.emit_labels (s : State) (es : List Event) : (s.emit es).labels = s.labels ++ [.emit] := rfl

@[simp] theorem State.resetOp_cat (s : State) : (s.resetOp).cat = s.cat := rfl
@[simp] theorem State.resetOp_st (s : State) : (s.resetOp).st = .sync0 := rfl
@[simp] theorem State.resetOp_cnt (s : State) : (s.resetOp).cnt = 0 := rfl
@[simp] theorem State.resetOp_buf (s : State) : (s.resetOp).buf = s.buf := rfl
@[simp] theorem State.resetOp_fam (s : State) : (s.resetOp).fam = s.fam := rfl
@[simp] theorem State.resetOp_fmt (s : State) : (s.resetOp).fmt = s.fmt := rfl
@[simp] theorem State.resetOp_len (s : State) : (s.resetOp).len = s.len := rfl
@[simp] theorem State.resetOp_out (s : State) : (s.resetOp).out = s.out := rfl
@[simp] theorem State.resetOp_input (s : State) : (s.resetOp).input = s.input := rfl
@[simp] theorem State.resetOp_commands (s : State) : (s.resetOp).commands = s.commands := rfl
@[simp] theorem State.resetOp_labels (s : State) : (s.resetOp).labels = [] := rfl

@[simp] theorem State.push_cat (s : State) (b : Byte) : (s.push b).cat = s.cat := rfl
@[simp] theorem State.push_st (s : State) (b : Byte) : (s.push b).st = s.st := rfl
@[simp] theorem State.push_cnt (s : State) (b : Byte) : (s.push b).cnt = s.cnt + 1 := rfl
@[simp] theorem State.push_buf (s : State) (b : Byte) : (s.push b).buf = insertCell s.cnt b s.buf := rfl
@[simp] theorem State.push_fam (s : State) (b : Byte) : (s.push b).fam = s.fam := rfl
@[simp] theorem State.push_fmt (s : State) (b : Byte) : (s.push b).fmt = s.fmt := rfl
@[simp] theorem State.push_len (s : State) (b : Byte) : (s.push b).len = s.len := rfl
@[simp] theorem State.push_out (s : State) (b : Byte) : (s.push b).out = s.out := rfl
@[simp] theorem State.push_input (s : State) (b : Byte) : (s.push b).input = s.input := rfl
@[simp] theorem State.push_commands (s : State) (b : Byte) : (s.push b).commands = s.commands := rfl
@[simp] theorem State.push_labels (s : State) (b : Byte) : (s.push b).labels = s.labels := rfl

@[simp] theorem State.withInput_cat (s : State) (ops : List Op) : (s.withInput ops).cat = s.cat := rfl
@[simp] theorem State.withInput_st (s : State) (ops : List Op) : (s.withInput ops).st = s.st := rfl
@[simp] theorem State.withInput_cnt (s : State) (ops : List Op) : (s.withInput ops).cnt = s.cnt := rfl
@[simp] theorem State.withInput_buf (s : State) (ops : List Op) : (s.withInput ops).buf = s.buf := rfl
@[simp] theorem State.withInput_fam (s : State) (ops : List Op) : (s.withInput ops).fam = s.fam := rfl
@[simp] theorem State.withInput_fmt (s : State) (ops : List Op) : (s.withInput ops).fmt = s.fmt := rfl
@[simp] theorem State.withInput_len (s : State) (ops : List Op) : (s.withInput ops).len = s.len := rfl
@[simp] theorem State.withInput_out (s : State) (ops : List Op) : (s.withInput ops).out = s.out := rfl
@[simp] theorem State.withInput_input (s : State) (ops : List Op) : (s.withInput ops).input = ops := rfl
@[simp] theorem State.withInput_commands (s : State) (ops : List Op) : (s.withInput ops).commands = s.commands := rfl
@[simp] theorem State.withInput_labels (s : State) (ops : List Op) : (s.withInput ops).labels = s.labels := rfl

@[simp] theorem State.startStep_cat (s : State) : (s.startStep).cat = s.cat := rfl
@[simp] theorem State.startStep_st (s : State) : (s.startStep).st = s.st := rfl
@[simp] theorem State.startStep_cnt (s : State) : (s.startStep).cnt = s.cnt := rfl
@[simp] theorem State.startStep_buf (s : State) : (s.startStep).buf = s.buf := rfl
@[simp] theorem State.startStep_fam (s : State) : (s.startStep).fam = s.fam := rfl
@[simp] theorem State.startStep_fmt (s : State) : (s.startStep).fmt = s.fmt := rfl
@[simp] theorem State.startStep_len (s : State) : (s.startStep).len = s.len := rfl
@[simp] theorem State.startStep_out (s : State) : (s.startStep).out = s.out := rfl
@[simp] theorem State.startStep_input (s : State) : (s.startStep).input = s.input := rfl
@[simp] theorem State.startStep_commands (s : State) : (s.startStep).commands = s.commands := rfl
@[simp] theorem State.startStep_labels (s : State) : (s.startStep).labels = [] := rfl

end Sys2Proof.Machine
end

