-- ==== Sys2Proof/Laws/Handlers.lean ====
section
/-! SUPPORT. When the reads, the checksum functions, the validators and the handlers have a value, and everything COMPLETE on
a frame can do (R56, R86, R162, R163, R220 to R236). -/

namespace Sys2Proof

/-! ## Checksum functions -/

theorem add8From_eq (s : Byte) (bs : List Byte) : add8From s bs = s + add8 bs := by
  induction bs generalizing s with
  | nil => simp [add8From, add8]
  | cons b bs ih => rw [add8, add8From, add8From, ih, ih (0 + b), BitVec.add_assoc, BitVec.ofNat_eq_ofNat, BitVec.zero_add]

theorem add8_cons (b : Byte) (bs : List Byte) : add8 (b :: bs) = b + add8 bs := by
  rw [add8, add8From, add8From_eq, BitVec.ofNat_eq_ofNat, BitVec.zero_add]

theorem add8_append (xs ys : List Byte) : add8 (xs ++ ys) = add8 xs + add8 ys := by
  induction xs with
  | nil => simp [add8, add8From]
  | cons x xs ih => rw [List.cons_append, add8_cons, add8_cons, ih, BitVec.add_assoc]

theorem fold16From_isSome (t : Acc) (bs : List Byte) : (fold16From t bs).isSome = (bs.length % 2 == 0) := by
  fun_induction fold16From t bs with
  | case1 => rfl
  | case2 => rfl
  | case3 t lo hi bs ih => simp only [ih, List.length_cons]; congr 1; omega

/-- FOLD16 has a value exactly on an even number of bytes (R124, U3). -/
theorem fold16_isSome (bs : List Byte) : (fold16 bs).isSome = (bs.length % 2 == 0) := by
  simp [fold16, fold16From_isSome]

theorem fold16From_append (t : Acc) (xs ys : List Byte) (h : xs.length % 2 = 0) :
    fold16From t (xs ++ ys) = (fold16From t xs).bind fun u => fold16From u ys := by
  fun_induction fold16From t xs with
  | case1 => rfl
  | case2 => simp at h
  | case3 t lo hi bs ih =>
    simp only [List.length_cons] at h
    simpa [fold16From] using ih (by omega)

/-- CRC8 has a value with a table of 256 entries (R128, W7). -/
theorem crc8From_isSome {table : List Byte} (h : table.length = 256) (c : Byte) (bs : List Byte) :
    (crc8From table c bs).isSome = true := by
  induction bs generalizing c with
  | nil => rfl
  | cons b bs ih =>
    have hi : (c ^^^ b).toNat < table.length := by rw [h]; exact (c ^^^ b).isLt
    simp only [crc8From, List.getElem?_eq_getElem hi]
    exact ih _

theorem crc8From_append (table : List Byte) (c : Byte) (xs ys : List Byte) :
    crc8From table c (xs ++ ys) = (crc8From table c xs).bind fun d => crc8From table d ys := by
  induction xs generalizing c with
  | nil => rfl
  | cons x xs ih =>
    simp only [List.cons_append, crc8From]
    split
    · rfl
    · exact ih _

/-- The bytes of a 16-bit field read back as the field (R51, R52). -/
theorem le16_wordBytes (w : Word) : le16 (w.setWidth 8) ((w >>> 8).setWidth 8) = w := by
  apply BitVec.eq_of_getLsbD_eq
  intro i hi
  simp only [le16, BitVec.getLsbD_or, BitVec.getLsbD_setWidth, BitVec.getLsbD_shiftLeft, BitVec.getLsbD_ushiftRight]
  by_cases h8 : i < 8
  · simp [hi, h8]
  · have e : 8 + (i - 8) = i := by omega
    have h16 : i - 8 < 16 := by omega
    have h : i - 8 < 8 := by omega
    simp [hi, h8, e, h16, h]

/-- A 16-bit field as a number (R52). -/
theorem le16_toNat (lo hi : Byte) : (le16 lo hi).toNat = lo.toNat + 256 * hi.toNat := by
  have hl := lo.isLt
  have hh := hi.isLt
  have e1 : (lo.setWidth 16).toNat = lo.toNat := by simp; omega
  have e2 : (hi.setWidth 16 <<< 8).toNat = hi.toNat <<< 8 := by
    simp [BitVec.toNat_shiftLeft, Nat.shiftLeft_eq]; omega
  rw [le16, BitVec.toNat_or, e1, e2, Nat.or_comm, ← Nat.shiftLeft_add_eq_or_of_lt (i := 8) hl, Nat.shiftLeft_eq]
  omega

namespace Machine

/-! ## Reads of a frame -/

theorem u16le_of_lt {f : List Byte} {off : Nat} (h : off + 1 < f.length) : ∃ w, u16le f off = some w := by
  have h0 : off < f.length := by omega
  simp [u16le, List.getElem?_eq_getElem h, List.getElem?_eq_getElem h0]

theorem qualityAt_of_le {q : QKind} {f : List Byte} {o : Nat} (h : o + q.minPoint ≤ f.length) :
    ∃ w, qualityAt q f o = some w := by
  cases q with
  | none => exact ⟨_, rfl⟩
  | u8 =>
    simp only [QKind.minPoint] at h
    have h0 : o + 2 < f.length := by omega
    simp [qualityAt, List.getElem?_eq_getElem h0]
  | u16 =>
    simp only [QKind.minPoint] at h
    exact u16le_of_lt (by omega)

theorem pointAt_of_le {d : PcLayout} {f : List Byte} {j : Nat} (hp : d.qkind.minPoint ≤ d.p)
    (h : d.ptsOff + (j + 1) * d.p ≤ f.length) : ∃ pt, pointAt d f j = some pt := by
  have e : (j + 1) * d.p = j * d.p + d.p := by ring
  have h2 : 2 ≤ d.qkind.minPoint := by cases d.qkind <;> decide
  obtain ⟨w, hw⟩ := u16le_of_lt (f := f) (off := d.ptsOff + j * d.p) (by omega)
  obtain ⟨q, hq⟩ := qualityAt_of_le (q := d.qkind) (f := f) (o := d.ptsOff + j * d.p) (by omega)
  simp [pointAt, hw, hq]

theorem pointsFrom_of_le {d : PcLayout} {f : List Byte} (hp : d.qkind.minPoint ≤ d.p) {k : Nat} : ∀ {j : Nat},
    d.ptsOff + (j + k) * d.p ≤ f.length → ∃ pts, pointsFrom d f j k = some pts := by
  induction k with
  | zero => intro j _; exact ⟨_, rfl⟩
  | succ k ih =>
    intro j h
    have hm : (j + 1) * d.p ≤ (j + (k + 1)) * d.p := Nat.mul_le_mul_right _ (by omega)
    obtain ⟨pt, hpt⟩ := pointAt_of_le hp (j := j) (f := f) (by omega)
    have e : (j + 1 + k) * d.p = (j + (k + 1)) * d.p := by ring
    obtain ⟨pts, hpts⟩ := ih (j := j + 1) (by omega)
    simp [pointsFrom, hpt, hpts]

theorem pointsFrom_length {d : PcLayout} {f : List Byte} {k : Nat} : ∀ {j : Nat} {pts : List (Word × Word)},
    pointsFrom d f j k = some pts → pts.length = k := by
  induction k with
  | zero => intro j pts h; simp [pointsFrom] at h; simp [← h]
  | succ k ih =>
    intro j pts h
    simp only [pointsFrom] at h
    split at h
    · rename_i h2
      cases h
      simp [ih h2]
    · cases h

/-- Every field of a point-cloud frame can be read with a well-formed record (W6, R257 (b)). -/
theorem pcFields_of_ok {r : FormatRecord} {d : PcLayout} {f : List Byte} (hr : r.ok = true) (hk : r.kind = .pc d)
    (hl : f.length = d.len) : ∃ x, pcFields d f = some x := by
  simp only [FormatRecord.ok, hk, Bool.and_eq_true, decide_eq_true_eq] at hr
  obtain ⟨w1, h1⟩ := u16le_of_lt (f := f) (off := d.speedOff) (by omega)
  obtain ⟨w2, h2⟩ := u16le_of_lt (f := f) (off := d.firstOff) (by omega)
  obtain ⟨w3, h3⟩ := u16le_of_lt (f := f) (off := d.lastOff) (by omega)
  obtain ⟨pts, h4⟩ := pointsFrom_of_le (d := d) (f := f) hr.1.2 (k := d.n) (j := 0) (by rw [Nat.zero_add]; omega)
  simp [pcFields, h1, h2, h3, h4]

theorem infoFields_of_lt {fid : FormatId} {h : Nat} {f : List Byte} (h2 : 2 < f.length) (hh : h < f.length) :
    ∃ x, infoFields fid h f = some x := by
  have h1 : h - 1 < f.length := by omega
  simp [infoFields, List.getElem?_eq_getElem h2, List.getElem?_eq_getElem hh, List.getElem?_eq_getElem h1]

/-! ## Validators -/

/-- Each validator answers on a frame that holds its checksum field, of even length for FOLD16, with a table of 256 entries
(R86, R257). -/
theorem validate_of_ok {cat : Catalog} {kind : CksKind} {f : List Byte} (ht : cat.crc8Table.length = 256)
    (hl : kind.width ≤ f.length) (he : kind = .fold16 → f.length % 2 = 0) : ∃ ok, validate cat kind f = .next ok := by
  have hcrc : ∀ bs, ∃ r, crc8 cat bs = some r := fun bs =>
    Option.isSome_iff_exists.1 (crc8From_isSome ht cat.crc8Init bs)
  cases kind with
  | add8 =>
    simp only [CksKind.width] at hl
    have h0 : f.length - 1 < f.length := by omega
    simp [validate, validAdd8, List.getElem?_eq_getElem h0]
  | fold16 =>
    simp only [CksKind.width] at hl
    have he' := he rfl
    obtain ⟨r, hr⟩ : ∃ r, fold16 (f.take (f.length - 2)) = some r := by
      apply Option.isSome_iff_exists.1
      rw [fold16_isSome, List.length_take, beq_iff_eq]
      omega
    obtain ⟨w, hw⟩ := u16le_of_lt (f := f) (off := f.length - 2) (by omega)
    simp [validate, validFold16, he', hr, hw]
  | crc8 =>
    simp only [CksKind.width] at hl
    have h0 : f.length - 1 < f.length := by omega
    obtain ⟨r, hr⟩ := hcrc (f.take (f.length - 1))
    simp [validate, validCrc8, List.getElem?_eq_getElem h0, hr]
  | crc8w =>
    obtain ⟨r, hr⟩ := hcrc f
    simp [validate, validCrc8w, hr]

/-! ## COMPLETE -/

/-- Everything COMPLETE on a frame can do: emit the frame and its handler's event, or discard (R162, R163). -/
theorem completeFrame_cases {fid : FormatId} {f : Frame} {s t : State} (h : completeFrame fid f s = .next t) :
    (∃ e, validate s.cat (s.cat.format fid).cks f.bytes = .next true ∧ handlerEvent s.cat fid f = some e ∧
      t = s.emit [.frameOut fid f.bytes, e]) ∨
    (validate s.cat (s.cat.format fid).cks f.bytes = .next false ∧ t = s.discard .dropCksum) := by
  unfold completeFrame at h
  split at h
  · rename_i hv
    split at h
    · rename_i e he
      cases h
      exact .inl ⟨e, hv, he, rfl⟩
    · cases h
  · rename_i hv
    cases h
    exact .inr ⟨hv, rfl⟩
  · cases h
  · cases h

/-- exec of an inbound format is COMPLETE on its frame (R190). -/
theorem exec_ofFormat (fid : FormatId) (f : Frame) (s : State) : exec (.ofFormat fid f) s = completeFrame fid f s := by
  cases fid <;> rfl

/-- What a well-formed frame's bytes are under a well-formed catalog: long enough for its fields and its checksum (W4 to
W6). -/
theorem frame_wf_length {cat : Catalog} {fid : FormatId} {f : Frame} (hc : cat.wf = true) (hf : f.wf cat fid = true) :
    3 ≤ f.hdrLen ∧ f.hdrLen + (cat.format fid).cks.width ≤ f.bytes.length ∧ f.hdrLen < f.bytes.length ∧
      f.bytes.length ≤ cat.bufSize ∧ (∀ d, (cat.format fid).kind = .pc d → f.bytes.length = d.len) := by
  obtain ⟨j, F, m0, m1, hj, h1, -, -, -, -, hr⟩ := frame_wf_iff.1 hf
  have hm := familyOf_mem hj
  obtain ⟨r1, r2, r3, r4⟩ := wf_resolve hc hm hr
  have hh := wf_header hc hm
  exact ⟨by omega, by omega, by omega, r2, fun d hd => (r4 d hd).symm⟩

/-- The validator answers on a well-formed frame (R257). -/
theorem validate_of_wf {cat : Catalog} {fid : FormatId} {f : Frame} (hc : cat.wf = true) (hf : f.wf cat fid = true) :
    ∃ ok, validate cat (cat.format fid).cks f.bytes = .next ok := by
  obtain ⟨-, h2, -, -, h5⟩ := frame_wf_length hc hf
  refine validate_of_ok (wf_table hc) (by omega) fun hk => ?_
  have hok := wf_format hc fid
  unfold FormatRecord.ok at hok
  split at hok
  · simp [hk] at hok
  · rename_i d hd
    simp only [hk, Bool.and_eq_true, decide_eq_true_eq] at hok
    rw [h5 d hd]
    simpa using hok.1.1.1.1.1.1

/-- The handler answers on a well-formed frame (R257). -/
theorem handlerEvent_of_wf {cat : Catalog} {fid : FormatId} {f : Frame} (hc : cat.wf = true)
    (hf : f.wf cat fid = true) : ∃ e, handlerEvent cat fid f = some e := by
  obtain ⟨h1, h2, h3, -, h5⟩ := frame_wf_length hc hf
  unfold handlerEvent
  split
  · rename_i d hd
    obtain ⟨x, hx⟩ := pcFields_of_ok (wf_format hc fid) hd (h5 d hd)
    simp [decodePoints, hx]
  · obtain ⟨x, hx⟩ := infoFields_of_lt (fid := fid) (h := f.hdrLen) (f := f.bytes) (by omega) (by omega)
    simp [decodeInfo, hx]

end Machine

end Sys2Proof
end

