-- ==== Sys2Proof/Laws/Fields.lean ====
section
/-! SUPPORT. The fields read back from the bytes they were written to (R51, R84, R111, R221), and the points of a batch one
by one (R226 to R228). -/

namespace Sys2Proof.Machine

theorem u16le_wordBytes (pre post : List Byte) (w : Word) : u16le (pre ++ (wordBytes w ++ post)) pre.length = some w := by
  have h0 : (pre ++ (wordBytes w ++ post))[pre.length]? = some (w.setWidth 8) := by
    rw [List.getElem?_append_right (by omega)]; simp [wordBytes]
  have h1 : (pre ++ (wordBytes w ++ post))[pre.length + 1]? = some ((w >>> 8).setWidth 8) := by
    rw [List.getElem?_append_right (by omega)]; simp [wordBytes]
  rw [u16le, h0, h1]
  simp [le16_wordBytes]

theorem pointBytes_length (q : QKind) (p : Word × Word) : (pointBytes q p).length = q.minPoint := by
  cases q <;> rfl

theorem pointBytes_flatMap_length (q : QKind) (pts : List (Word × Word)) :
    (pts.flatMap (pointBytes q)).length = pts.length * q.minPoint := by
  induction pts with
  | nil => simp
  | cons p ps ih => simp [pointBytes_length, ih]; ring

/-- A point reads back where its quality fits its field (R84). -/
theorem pointAt_pointBytes (d : PcLayout) (pre post : List Byte) (p : Word × Word) (j : Nat)
    (hp : pre.length = d.ptsOff + j * d.p) (h0 : d.qkind = .none → p.2 = 0) (h8 : d.qkind = .u8 → p.2.toNat < 256) :
    pointAt d (pre ++ (pointBytes d.qkind p ++ post)) j = some p := by
  have h1 : u16le (pre ++ (pointBytes d.qkind p ++ post)) pre.length = some p.1 := by
    unfold pointBytes; rw [List.append_assoc]; exact u16le_wordBytes _ _ _
  have h2 : qualityAt d.qkind (pre ++ (pointBytes d.qkind p ++ post)) pre.length = some p.2 := by
    unfold qualityAt
    cases hk : d.qkind with
    | none => simp [h0 hk]
    | u8 =>
      dsimp only
      rw [List.getElem?_append_right (by omega)]
      have := h8 hk
      simp [pointBytes, wordBytes]
      exact BitVec.eq_of_toNat_eq (by simp; omega)
    | u16 =>
      have := u16le_wordBytes (pre ++ wordBytes p.1) post p.2
      have e : pre.length + 2 = (pre ++ wordBytes p.1).length := by simp [wordBytes]
      simp only [pointBytes]
      rw [e]
      simpa [List.append_assoc] using this
  rw [pointAt, ← hp, h1, h2]

/-- Points written one after another read back in order (R221, R234). -/
theorem pointsFrom_flatMap (d : PcLayout) (hd : d.p = d.qkind.minPoint) (post : List Byte) :
    ∀ (pts : List (Word × Word)) (pre : List Byte) (j : Nat), pre.length = d.ptsOff + j * d.p →
      (∀ p ∈ pts, (d.qkind = .none → p.2 = 0) ∧ (d.qkind = .u8 → p.2.toNat < 256)) →
      pointsFrom d (pre ++ (pts.flatMap (pointBytes d.qkind) ++ post)) j pts.length = some pts := by
  intro pts
  induction pts with
  | nil => intros; rfl
  | cons p ps ih =>
    intro pre j hp hq
    obtain ⟨q0, q8⟩ := hq p (by simp)
    have h1 := pointAt_pointBytes d pre (ps.flatMap (pointBytes d.qkind) ++ post) p j hp q0 q8
    have h2 := ih (pre ++ pointBytes d.qkind p) (j + 1) (by simp [pointBytes_length, hp, hd]; ring)
      (fun q h => hq q (by simp [h]))
    simp only [List.flatMap_cons, List.length_cons, pointsFrom, List.append_assoc] at h1 h2 ⊢
    rw [h1, h2]

/-- The raw fields of a frame laid out as `CAT_DEFAULT` lays its point-cloud frames out (R102 to R106, R221). -/
theorem pcFields_of_built (d : PcLayout) (s0 s1 m0 m1 : Byte) (sp a b : Word) (pts : List (Word × Word))
    (field : List Byte) (h1 : d.speedOff = 4) (h2 : d.firstOff = 6) (h3 : d.ptsOff = 8) (h4 : d.p = d.qkind.minPoint)
    (h5 : d.lastOff = 8 + d.n * d.p) (hn : pts.length = d.n)
    (hq : ∀ p ∈ pts, (d.qkind = .none → p.2 = 0) ∧ (d.qkind = .u8 → p.2.toNat < 256)) :
    pcFields d ([s0, s1, m0, m1] ++ wordBytes sp ++ wordBytes a ++ pts.flatMap (pointBytes d.qkind) ++ wordBytes b ++
      field) = some ⟨sp, a, b, pts⟩ := by
  have e1 := u16le_wordBytes [s0, s1, m0, m1]
    (wordBytes a ++ (pts.flatMap (pointBytes d.qkind) ++ (wordBytes b ++ field))) sp
  have e2 := u16le_wordBytes ([s0, s1, m0, m1] ++ wordBytes sp)
    (pts.flatMap (pointBytes d.qkind) ++ (wordBytes b ++ field)) a
  have e3 := pointsFrom_flatMap d h4 (wordBytes b ++ field) pts ([s0, s1, m0, m1] ++ wordBytes sp ++ wordBytes a) 0
    (by simp [wordBytes, h3]) hq
  have e4 := u16le_wordBytes
    ([s0, s1, m0, m1] ++ wordBytes sp ++ wordBytes a ++ pts.flatMap (pointBytes d.qkind)) field b
  have l4 : ([s0, s1, m0, m1] ++ wordBytes sp ++ wordBytes a ++ pts.flatMap (pointBytes d.qkind)).length = d.lastOff := by
    rw [List.length_append, pointBytes_flatMap_length, hn, h5, h4]; simp [wordBytes]
  have l2 : ([s0, s1, m0, m1] ++ wordBytes sp).length = d.firstOff := by simp [wordBytes, h2]
  have l1 : [s0, s1, m0, m1].length = d.speedOff := by simp [h1]
  rw [l4] at e4; rw [l2] at e2; rw [l1] at e1
  simp only [List.append_assoc] at e1 e2 e3 e4 ⊢
  rw [pcFields, e1, e2, e4, ← hn, e3]

/-- Point `j` of a batch is the decoding of raw point `j` (R234). -/
theorem decodePointList_getElem? {r : Rounding} {d : PcLayout} {sp : Rat} {a b : Int} : ∀ {raws : List (Word × Word)}
    {i : Nat} (j : Nat),
    (decodePointList r d sp a b i raws)[j]? = (raws[j]?).map (decodePoint r d sp a b (i + j)) := by
  intro raws
  induction raws with
  | nil => intro i j; simp [decodePointList]
  | cons x xs ih =>
    intro i j
    cases j with
    | zero => simp [decodePointList]
    | succ j => simp only [decodePointList, List.getElem?_cons_succ, ih]; congr 2; omega

theorem decodePointList_length {r : Rounding} {d : PcLayout} {sp : Rat} {a b : Int} : ∀ {raws : List (Word × Word)}
    {i : Nat}, (decodePointList r d sp a b i raws).length = raws.length := by
  intro raws
  induction raws with
  | nil => intro i; rfl
  | cons x xs ih => intro i; simp [decodePointList, ih]

/-- The distance as a comparison (R226). -/
theorem distanceMm_eq (w : Word) : distanceMm w = if w.toNat < 0x8000 then w.toNat else 0 := by
  have : w.getLsbD 15 = decide (¬ w.toNat < 0x8000) := by
    rw [← BitVec.testBit_toNat, Nat.testBit_eq_decide_div_mod_eq]
    have := w.isLt
    congr 1
    simp; omega
  rw [distanceMm, this]
  by_cases h : w.toNat < 0x8000 <;> simp [h]

end Sys2Proof.Machine
end

