-- ==== Sys2Proof/Laws/Memory.lean ====
section
/-! SUPPORT. The frame buffer as a memory: a store is read back and leaves every other offset alone, the canonical form is
kept, and an append extends the frame candidate by one byte. -/

namespace Sys2Proof.Machine

theorem lookupCell_insertCell (m : List Host.Cell) (a k : Nat) (v : Byte) :
    lookupCell (insertCell a v m) k = if a = k then some v else lookupCell m k := by
  induction m with
  | nil => simp [insertCell, lookupCell]
  | cons c m ih =>
    unfold insertCell
    split_ifs with h1 h2 h3 h4 h5
    all_goals simp_all [lookupCell]
    · intro h; omega

/-- Every cell of the list has its offset below `n`. -/
def below (n : Nat) (m : List Host.Cell) : Prop := ∀ c ∈ m, c.1 < n

theorem below_insertCell {n a : Nat} {v : Byte} {m : List Host.Cell} (ha : a < n) (h : below n m) :
    below n (insertCell a v m) := by
  induction m with
  | nil => simpa [insertCell, below] using ha
  | cons c m ih =>
    have hm : below n m := fun x hx => h x (List.mem_cons_of_mem _ hx)
    have hc : c.1 < n := h c (List.mem_cons_self ..)
    unfold insertCell
    split_ifs <;> intro x hx <;> simp only [List.mem_cons] at hx
    · rcases hx with rfl | rfl | hx <;> [exact ha; exact hc; exact hm x hx]
    · rcases hx with rfl | hx <;> [exact ha; exact hm x hx]
    · rcases hx with rfl | hx <;> [exact hc; exact ih hm x hx]

theorem all_below_iff {n : Nat} {m : List Host.Cell} :
    m.all (fun c => decide (c.1 < n)) = true ↔ below n m := by
  simp [below, List.all_eq_true]

theorem risesFrom_insertCell (m : List Host.Cell) (a : Nat) (v : Byte) (lo : Option Nat)
    (h : risesFrom lo m = true) (hlo : ∀ k, lo = some k → k < a) : risesFrom lo (insertCell a v m) = true := by
  induction m generalizing lo with
  | nil => cases lo <;> simp_all [insertCell, risesFrom]
  | cons c m ih =>
    simp only [risesFrom, Bool.and_eq_true] at h
    unfold insertCell
    split_ifs with h1 h2
    · cases lo <;> simp_all [risesFrom]
    · cases lo <;> simp_all [risesFrom]
    · simp only [risesFrom, Bool.and_eq_true]
      refine ⟨h.1, ih _ h.2 ?_⟩
      intro k hk; cases hk; omega

/-- Every store keeps the canonical form. -/
theorem insertCell_wf {m : List Host.Cell} (a : Nat) (v : Byte) (h : Memory.wf m = true) :
    Memory.wf (insertCell a v m) = true :=
  risesFrom_insertCell m a v none h (by simp)

theorem storeBytes_wf (bs : List Byte) (off : Nat) (m : List Host.Cell) (h : Memory.wf m = true) :
    Memory.wf (storeBytes off bs m) = true := by
  induction bs generalizing off m with
  | nil => exact h
  | cons b bs ih => exact ih _ _ (insertCell_wf off b h)

/-- The reset buffer is in canonical form. -/
theorem reset_buf_wf : Memory.wf State.reset.buf = true := rfl

/-! ## Stores and appends -/

theorem storeAt_eq_some {s t : State} {off : Nat} {b : Byte} :
    s.storeAt off b = some t ↔ off < s.cat.bufSize ∧ t = { s with buf := insertCell off b s.buf } := by
  unfold State.storeAt
  split_ifs with h <;> simp [h, eq_comm]

theorem append_eq_some {s t : State} {b : Byte} : s.append b = some t ↔ s.cnt < s.cat.bufSize ∧ t = s.push b := by
  unfold State.append
  split_ifs with h <;> simp [h, eq_comm]

theorem append_of_lt {s : State} {b : Byte} (h : s.cnt < s.cat.bufSize) : s.append b = some (s.push b) :=
  append_eq_some.2 ⟨h, rfl⟩

/-! ## Reading a range -/

theorem readRange_congr {s t : State} {n : Nat} : ∀ {off : Nat},
    (∀ i, off ≤ i → i < off + n → s.read i = t.read i) → s.readRange off n = t.readRange off n := by
  induction n with
  | zero => intro off _; rfl
  | succ n ih =>
    intro off h
    have h0 := h off le_rfl (by omega)
    have h1 := ih (off := off + 1) (fun i hi hj => h i (by omega) (by omega))
    simp only [State.readRange, h0, h1]

theorem readRange_length {s : State} {n : Nat} : ∀ {off : Nat} {bs : List Byte},
    s.readRange off n = some bs → bs.length = n := by
  induction n with
  | zero => intro off bs h; simp [State.readRange] at h; simp [← h]
  | succ n ih =>
    intro off bs h
    simp only [State.readRange] at h
    split at h
    · rename_i b bs' _ h2
      cases h
      simp [ih h2]
    · cases h

theorem readRange_getElem {s : State} {n : Nat} : ∀ {off : Nat} {bs : List Byte},
    s.readRange off n = some bs → ∀ i, i < n → bs[i]? = s.read (off + i) := by
  induction n with
  | zero => intro off bs _ i hi; omega
  | succ n ih =>
    intro off bs h i hi
    simp only [State.readRange] at h
    split at h
    · rename_i b bs' h1 h2
      cases h
      cases i with
      | zero => simpa using h1.symm
      | succ i =>
        have := ih h2 i (by omega)
        simp only [List.getElem?_cons_succ, this]
        congr 1; omega
    · cases h

theorem readRange_snoc {s : State} {n : Nat} : ∀ {off : Nat} {bs : List Byte} {b : Byte},
    s.readRange off n = some bs → s.read (off + n) = some b → s.readRange off (n + 1) = some (bs ++ [b]) := by
  induction n with
  | zero =>
    intro off bs b h hb
    simp [State.readRange] at h
    simp only [Nat.add_zero] at hb
    simp [State.readRange, hb, ← h]
  | succ n ih =>
    intro off bs b h hb
    simp only [State.readRange] at h
    split at h
    · rename_i c bs' h1 h2
      cases h
      have h3 := ih h2 (b := b) (by rw [← hb]; congr 1; omega)
      rw [State.readRange, h1, h3]
      rfl
    · cases h

/-- The candidate has `cnt` bytes (R23). -/
theorem candidate_length {s : State} {bs : List Byte} (h : s.candidate = some bs) : bs.length = s.cnt :=
  readRange_length h

/-- The candidate's bytes are the buffer's (R16). -/
theorem candidate_getElem {s : State} {bs : List Byte} (h : s.candidate = some bs) {i : Nat} (hi : i < s.cnt) :
    bs[i]? = s.read i := by
  simpa using readRange_getElem h i hi

/-- A read below `cnt` is a lookup, and only there (R24). -/
theorem read_of_lt {s : State} {i : Nat} (h : i < s.cnt) : s.read i = lookupCell s.buf i := by
  simp [State.read, h]

theorem read_of_le {s : State} {i : Nat} (h : s.cnt ≤ i) : s.read i = none := by
  simp [State.read, Nat.not_lt.2 h]

/-- The candidate depends on `cnt` and `buf` alone. -/
theorem candidate_congr {s t : State} (hc : s.cnt = t.cnt) (hb : s.buf = t.buf) : s.candidate = t.candidate := by
  unfold State.candidate
  rw [hc]
  exact readRange_congr fun i _ _ => by simp [State.read, hc, hb]

/-- An empty candidate (R23). -/
theorem candidate_of_zero {s : State} (h : s.cnt = 0) : s.candidate = some [] := by
  simp [State.candidate, h, State.readRange]

/-- The append reads back at its offset and leaves the other offsets alone (R55). -/
theorem push_read (s : State) (b : Byte) (i : Nat) : (s.push b).read i = if i = s.cnt then some b else s.read i := by
  simp only [State.read, State.push_buf, State.push_cnt, lookupCell_insertCell]
  split_ifs <;> first | rfl | omega

/-- The append extends the frame candidate by the fed byte (R27). -/
theorem candidate_push {s : State} (b : Byte) {bs : List Byte} (hc : s.candidate = some bs) :
    (s.push b).candidate = some (bs ++ [b]) := by
  unfold State.candidate at hc ⊢
  rw [State.push_cnt]
  refine readRange_snoc ?_ (by rw [push_read]; simp)
  rw [← hc]
  exact readRange_congr fun i _ hi => by rw [push_read, if_neg (by omega)]

@[simp] theorem candidate_withInput (s : State) (ops : List Op) : (s.withInput ops).candidate = s.candidate :=
  candidate_congr rfl rfl

@[simp] theorem candidate_startStep (s : State) : s.startStep.candidate = s.candidate := candidate_congr rfl rfl

@[simp] theorem candidate_label (s : State) (l : Label) : (s.label l).candidate = s.candidate := candidate_congr rfl rfl

/-- A discard empties the candidate (R253). -/
@[simp] theorem candidate_discard (s : State) (c : Cause) : (s.discard c).candidate = some [] := candidate_of_zero rfl

/-- An emission empties the candidate (R163). -/
@[simp] theorem candidate_emit (s : State) (es : List Event) : (s.emit es).candidate = some [] := candidate_of_zero rfl

/-- One byte stored at offset 0 with `cnt = 1` is the whole candidate (R153). -/
theorem candidate_one {s : State} {b : Byte} (m : List Host.Cell) (hc : s.cnt = 1) (hb : s.buf = insertCell 0 b m) :
    s.candidate = some [b] := by
  simp [State.candidate, hc, State.readRange, State.read, hb, lookupCell_insertCell]

/-- Two bytes at offsets 0 and 1 with `cnt = 2` are the whole candidate (R154). -/
theorem candidate_two {s : State} {a b : Byte} (hc : s.cnt = 2) (h0 : lookupCell s.buf 0 = some a)
    (h1 : lookupCell s.buf 1 = some b) : s.candidate = some [a, b] := by
  simp [State.candidate, hc, State.readRange, State.read, h0, h1]

end Sys2Proof.Machine
end

