-- ==== Sys2Proof/Laws/Framing.lean ====
section
/-! SUPPORT. Everything each micro-operation, FEED_BYTE and a step can do, said once (R150 to R165); what the invariant of
R27 gives in each framing state; and COMPLETE on the candidate the invariant describes. -/

namespace Sys2Proof.Machine

/-! ## Inversion of the micro-operations -/

/-- SYNC0: the byte is buffered and `st` becomes SYNC1, or nothing changes (R153). -/
theorem microSync0_cases {b : Byte} {s t : State} (h : microSync0 b s = .next t) :
    (s.cat.inFirst b = true ∧ 0 < s.cat.bufSize ∧
      t = { s with buf := insertCell 0 b s.buf, cnt := 1, st := .sync1, labels := s.labels ++ [.sync0Hit] }) ∨
    (s.cat.inFirst b = false ∧ t = s.label .sync0Skip) := by
  unfold microSync0 at h
  split at h
  · rename_i hb
    split at h
    · rename_i u hu
      cases h
      obtain ⟨h0, rfl⟩ := storeAt_eq_some.1 hu
      exact .inl ⟨hb, h0, rfl⟩
    · cases h
  · rename_i hb
    cases h
    exact .inr ⟨by simpa using hb, rfl⟩

/-- SYNC1: the pair is complete and HEADER begins (R154), or the discard with SYNC0 on the same byte (R155). -/
theorem microSync1_cases {b : Byte} {s t : State} (h : microSync1 b s = .next t) :
    ∃ a, s.read 0 = some a ∧
      ((∃ i F, s.cat.familyOf a b = some (i, F) ∧ 1 < s.cat.bufSize ∧
        t = { s with buf := insertCell 1 b s.buf, cnt := 2, fam := i, st := .header,
                     labels := s.labels ++ [.sync1Hit] }) ∨
      (s.cat.familyOf a b = none ∧ microSync0 b (s.discard .dropSync1) = .next t)) := by
  unfold microSync1 at h
  split at h
  · cases h
  · rename_i a ha
    refine ⟨a, ha, ?_⟩
    split at h
    · rename_i i F hF
      split at h
      · rename_i u hu
        cases h
        obtain ⟨h0, rfl⟩ := storeAt_eq_some.1 hu
        exact .inl ⟨i, F, hF, h0, rfl⟩
      · cases h
    · rename_i hF
      exact .inr ⟨hF, h⟩

/-- HEADER with the header complete: discard of an unknown model code, ACCUM, or discard of a bad length (R157 to R159). -/
theorem resolveHeader_cases {F : Family} {m0 m1 : Byte} {s t : State} (h : resolveHeader F m0 m1 s = .next t) :
    (s.cat.resolve F m0 m1 = .unknownModel ∧ t = s.discard .dropModel) ∨
    (∃ fid len, s.cat.resolve F m0 m1 = .format fid len ∧ s.cat.lengthOk F len = true ∧
      t = { s with fmt := fid, len := len, st := .accum, labels := s.labels ++ [.headerDone] }) ∨
    (∃ fid len, s.cat.resolve F m0 m1 = .format fid len ∧ s.cat.lengthOk F len = false ∧
      t = { s with fmt := fid, len := len }.discard .dropLen) := by
  unfold resolveHeader at h
  split at h
  · rename_i hr; cases h; exact .inl ⟨hr, rfl⟩
  · cases h
  · rename_i fid len hr
    split at h
    · rename_i hl; cases h; exact .inr (.inl ⟨fid, len, hr, hl, rfl⟩)
    · rename_i hl; cases h; exact .inr (.inr ⟨fid, len, hr, by simpa using hl, rfl⟩)

/-- HEADER: one byte more, or the header is complete (R156). -/
theorem microHeader_cases {b : Byte} {s t : State} (h : microHeader b s = .next t) :
    ∃ F u, s.cat.families[s.fam]? = some F ∧ s.append b = some u ∧
      ((u.cnt < F.hdrLen ∧ t = u.label .headerMore) ∨
      (F.hdrLen ≤ u.cnt ∧ ∃ m0 m1, u.read (F.hdrLen - 2) = some m0 ∧ u.read (F.hdrLen - 1) = some m1 ∧
        resolveHeader F m0 m1 u = .next t)) := by
  unfold microHeader at h
  split at h
  · cases h
  · rename_i F hF
    split at h
    · cases h
    · rename_i u hu
      refine ⟨F, u, hF, hu, ?_⟩
      split at h
      · rename_i hlt; cases h; exact .inl ⟨hlt, rfl⟩
      · rename_i hlt
        split at h
        · rename_i m0 m1 h0 h1; exact .inr ⟨by omega, m0, m1, h0, h1, h⟩
        · cases h

/-- COMPLETE hands the buffered frame to the meaning of its format (R162). -/
theorem microComplete_cases {s t : State} (h : microComplete s = .next t) :
    ∃ bytes f, s.readRange 0 s.len = some bytes ∧ s.cat.split s.fmt bytes = some f ∧
      completeFrame s.fmt f s = .next t := by
  unfold microComplete at h
  split at h
  · cases h
  · rename_i bytes hb
    split at h
    · cases h
    · rename_i f hf
      exact ⟨bytes, f, hb, hf, by rwa [exec_ofFormat] at h⟩

/-- ACCUM: one byte more, or the final byte and COMPLETE (R160, R161). -/
theorem microAccum_cases {b : Byte} {s t : State} (h : microAccum b s = .next t) :
    ∃ u, s.append b = some u ∧
      ((u.cnt < u.len ∧ t = u.label .accumMore) ∨ (u.len ≤ u.cnt ∧ microComplete u = .next t)) := by
  unfold microAccum at h
  split at h
  · cases h
  · rename_i u hu
    refine ⟨u, hu, ?_⟩
    split at h
    · rename_i hlt; cases h; exact .inl ⟨hlt, rfl⟩
    · rename_i hlt; exact .inr ⟨by omega, h⟩

/-- FEED_BYTE dispatches on `st` (R152). -/
theorem feedByte_cases {b : Byte} {s t : State} (h : feedByte b s = .next t) :
    (s.st = .sync0 ∧ microSync0 b s.startStep = .next t) ∨
    (s.st = .sync1 ∧ microSync1 b s.startStep = .next t) ∨
    (s.st = .header ∧ microHeader b s.startStep = .next t) ∨
    (s.st = .accum ∧ microAccum b s.startStep = .next t) := by
  unfold feedByte at h
  cases hs : s.st <;> simp_all

/-- Everything FEED_BYTE can do, one case per ghost label: what it tested and the state it leaves (R152 to R163, R251). -/
inductive FeedOutcome (b : Byte) (s t : State) : Prop
  | sync0Hit (hs : s.st = .sync0) (hb : s.cat.inFirst b = true) (hn : 0 < s.cat.bufSize)
      (ht : t = { s with buf := insertCell 0 b s.buf, cnt := 1, st := .sync1, labels := [.sync0Hit] })
  | sync0Skip (hs : s.st = .sync0) (hb : s.cat.inFirst b = false) (ht : t = { s with labels := [.sync0Skip] })
  | sync1Hit (a : Byte) (i : Nat) (F : Family) (hs : s.st = .sync1) (ha : s.read 0 = some a)
      (hF : s.cat.familyOf a b = some (i, F)) (hn : 1 < s.cat.bufSize)
      (ht : t = { s with buf := insertCell 1 b s.buf, cnt := 2, fam := i, st := .header, labels := [.sync1Hit] })
  | sync1AgainHit (a : Byte) (hs : s.st = .sync1) (ha : s.read 0 = some a) (hF : s.cat.familyOf a b = none)
      (hb : s.cat.inFirst b = true) (hn : 0 < s.cat.bufSize)
      (ht : t = { s with buf := insertCell 0 b s.buf, cnt := 1, labels := [.drop .dropSync1, .sync0Hit] })
  | sync1AgainSkip (a : Byte) (hs : s.st = .sync1) (ha : s.read 0 = some a) (hF : s.cat.familyOf a b = none)
      (hb : s.cat.inFirst b = false)
      (ht : t = { s with cnt := 0, st := .sync0, labels := [.drop .dropSync1, .sync0Skip] })
  | headerMore (F : Family) (hs : s.st = .header) (hF : s.cat.families[s.fam]? = some F) (hn : s.cnt < s.cat.bufSize)
      (hl : s.cnt + 1 < F.hdrLen) (ht : t = { s.push b with labels := [.headerMore] })
  | dropModel (F : Family) (m0 m1 : Byte) (hs : s.st = .header) (hF : s.cat.families[s.fam]? = some F)
      (hn : s.cnt < s.cat.bufSize) (hl : F.hdrLen ≤ s.cnt + 1) (h0 : (s.push b).read (F.hdrLen - 2) = some m0)
      (h1 : (s.push b).read (F.hdrLen - 1) = some m1) (hr : s.cat.resolve F m0 m1 = .unknownModel)
      (ht : t = { s.push b with cnt := 0, st := .sync0, labels := [.drop .dropModel] })
  | headerDone (F : Family) (m0 m1 : Byte) (fid : FormatId) (len : Nat) (hs : s.st = .header)
      (hF : s.cat.families[s.fam]? = some F) (hn : s.cnt < s.cat.bufSize) (hl : F.hdrLen ≤ s.cnt + 1)
      (h0 : (s.push b).read (F.hdrLen - 2) = some m0) (h1 : (s.push b).read (F.hdrLen - 1) = some m1)
      (hr : s.cat.resolve F m0 m1 = .format fid len) (hk : s.cat.lengthOk F len = true)
      (ht : t = { s.push b with fmt := fid, len := len, st := .accum, labels := [.headerDone] })
  | dropLen (F : Family) (m0 m1 : Byte) (fid : FormatId) (len : Nat) (hs : s.st = .header)
      (hF : s.cat.families[s.fam]? = some F) (hn : s.cnt < s.cat.bufSize) (hl : F.hdrLen ≤ s.cnt + 1)
      (h0 : (s.push b).read (F.hdrLen - 2) = some m0) (h1 : (s.push b).read (F.hdrLen - 1) = some m1)
      (hr : s.cat.resolve F m0 m1 = .format fid len) (hk : s.cat.lengthOk F len = false)
      (ht : t = { s.push b with fmt := fid, len := len, cnt := 0, st := .sync0, labels := [.drop .dropLen] })
  | accumMore (hs : s.st = .accum) (hn : s.cnt < s.cat.bufSize) (hl : s.cnt + 1 < s.len)
      (ht : t = { s.push b with labels := [.accumMore] })
  | emit (bytes : List Byte) (f : Frame) (e : Event) (hs : s.st = .accum) (hn : s.cnt < s.cat.bufSize)
      (hl : s.len ≤ s.cnt + 1) (hb : (s.push b).readRange 0 s.len = some bytes)
      (hf : s.cat.split s.fmt bytes = some f) (hv : validate s.cat (s.cat.format s.fmt).cks f.bytes = .next true)
      (he : handlerEvent s.cat s.fmt f = some e)
      (ht : t = { s.push b with out := s.out ++ [.frameOut s.fmt f.bytes, e], cnt := 0, st := .sync0, labels := [.emit] })
  | dropCksum (bytes : List Byte) (f : Frame) (hs : s.st = .accum) (hn : s.cnt < s.cat.bufSize)
      (hl : s.len ≤ s.cnt + 1) (hb : (s.push b).readRange 0 s.len = some bytes)
      (hf : s.cat.split s.fmt bytes = some f) (hv : validate s.cat (s.cat.format s.fmt).cks f.bytes = .next false)
      (ht : t = { s.push b with cnt := 0, st := .sync0, labels := [.drop .dropCksum] })

/-- FEED_BYTE does one of the twelve. -/
theorem feedByte_outcome {b : Byte} {s t : State} (h : feedByte b s = .next t) : FeedOutcome b s t := by
  obtain ⟨hs, h⟩ | ⟨hs, h⟩ | ⟨hs, h⟩ | ⟨hs, h⟩ := feedByte_cases h
  · obtain ⟨hb, hn, rfl⟩ | ⟨hb, rfl⟩ := microSync0_cases h
    · exact .sync0Hit hs hb hn rfl
    · exact .sync0Skip hs hb rfl
  · obtain ⟨a, ha, ⟨i, F, hF, hn, rfl⟩ | ⟨hF, h⟩⟩ := microSync1_cases h
    · exact .sync1Hit a i F hs ha hF hn rfl
    · obtain ⟨hb, hn, rfl⟩ | ⟨hb, rfl⟩ := microSync0_cases h
      · exact .sync1AgainHit a hs ha hF hb hn
          (by simp [State.discard, State.startStep, hs])
      · exact .sync1AgainSkip a hs ha hF hb rfl
  · obtain ⟨F, u, hF, hu, h⟩ := microHeader_cases h
    obtain ⟨hn, rfl⟩ := append_eq_some.1 hu
    obtain ⟨hl, rfl⟩ | ⟨hl, m0, m1, h0, h1, h⟩ := h
    · exact .headerMore F hs hF hn hl rfl
    · obtain ⟨hr, rfl⟩ | ⟨fid, len, hr, hk, rfl⟩ | ⟨fid, len, hr, hk, rfl⟩ := resolveHeader_cases h
      · exact .dropModel F m0 m1 hs hF hn hl h0 h1 hr rfl
      · exact .headerDone F m0 m1 fid len hs hF hn hl h0 h1 hr hk rfl
      · exact .dropLen F m0 m1 fid len hs hF hn hl h0 h1 hr hk rfl
  · obtain ⟨u, hu, h⟩ := microAccum_cases h
    obtain ⟨hn, rfl⟩ := append_eq_some.1 hu
    obtain ⟨hl, rfl⟩ | ⟨hl, h⟩ := h
    · exact .accumMore hs hn hl rfl
    · obtain ⟨bytes, f, hb, hf, h⟩ := microComplete_cases h
      have hb' : (s.push b).readRange 0 s.len = some bytes := by
        rw [← hb]; exact readRange_congr fun i _ _ => rfl
      obtain ⟨e, hv, he, rfl⟩ | ⟨hv, rfl⟩ := completeFrame_cases h
      · exact .emit bytes f e hs hn hl hb' hf hv he rfl
      · exact .dropCksum bytes f hs hn hl hb' hf hv rfl

/-- What no FEED_BYTE changes: the catalog, the issued operations, the command frames (R30, R199). -/
theorem feedByte_keeps {b : Byte} {s t : State} (h : feedByte b s = .next t) :
    t.cat = s.cat ∧ t.input = s.input ∧ t.commands = s.commands := by
  cases feedByte_outcome h <;> subst_vars <;> exact ⟨rfl, rfl, rfl⟩

/-- FEED of one byte more. -/
theorem feed_snoc {xs : List Byte} {x : Byte} {s t : State} (h : feed xs s = .next t) :
    feed (xs ++ [x]) s = feedByte x t := by
  induction xs generalizing s with
  | nil => cases h; simp only [List.nil_append, feed]; cases hh : feedByte x t <;> simp
  | cons y ys ih =>
    simp only [List.cons_append, feed] at h ⊢
    cases hu : feedByte y s <;> simp only [hu] at h ⊢
    · exact ih h
    · cases h
    · cases h

/-- A step: the state is held, or the oldest operation runs (R35, R286). -/
theorem step_cases {s t : State} (h : step s = .next t) :
    s.cat.wf = true ∧ ((s.input = [] ∧ t = s) ∨
      ∃ op ops, s.input = op :: ops ∧ runOp op (s.withInput ops) = .next t) := by
  unfold step takeOp at h
  split at h
  · rename_i hwf
    refine ⟨hwf, ?_⟩
    split at h
    · rename_i hi; cases h; exact .inl ⟨hi, rfl⟩
    · rename_i op ops hi; exact .inr ⟨op, ops, hi, h⟩
  · cases h

/-! ## A step in each situation -/

theorem step_feed {s : State} {b : Byte} {ops : List Op} (hwf : s.cat.wf = true) (hi : s.input = .feedByte b :: ops) :
    step s = feedByte b (s.withInput ops) := by
  simp [step, takeOp, hwf, hi, runOp]

theorem step_idle {s : State} (hwf : s.cat.wf = true) (hi : s.input = []) : step s = .next s := by
  simp [step, takeOp, hwf, hi]

/-! ## The invariant of R27 -/

/-- The parts of the invariant. -/
theorem inv_iff {s : State} :
    s.inv = true ↔ s.cat.wf = true ∧ s.cat.headersFit = true ∧ Memory.wf s.buf = true ∧ below s.cat.bufSize s.buf ∧
      s.framingOk = true := by
  simp only [State.inv, Bool.and_eq_true, all_below_iff, and_assoc]

/-- The invariant reads the catalog and the tuple of R21 alone. -/
theorem inv_congr {s t : State} (h1 : s.cat = t.cat) (h2 : s.st = t.st) (h3 : s.cnt = t.cnt) (h4 : s.buf = t.buf)
    (h5 : s.fam = t.fam) (h6 : s.fmt = t.fmt) (h7 : s.len = t.len) : s.inv = t.inv := by
  simp only [State.inv, State.framingOk, candidate_congr h3 h4, h1, h2, h3, h4, h5, h6, h7]

/-- I0 (R27). -/
theorem framingOk_sync0 {s : State} (hs : s.st = .sync0) : s.framingOk = true ↔ s.cnt = 0 := by
  simp [State.framingOk, hs]

/-- I1 (R27). -/
theorem framingOk_sync1 {s : State} (hs : s.st = .sync1) :
    s.framingOk = true ↔ ∃ a, s.candidate = some [a] ∧ s.cat.inFirst a = true := by
  simp only [State.framingOk, hs]
  split
  · rename_i a ha; simp [ha]
  · rename_i hne
    constructor
    · intro h; cases h
    · rintro ⟨a, ha, -⟩; exact absurd ha (hne a)

theorem headerPair_iff {F : Family} {bs : List Byte} :
    headerPair F bs = true ↔ ∃ rest, bs = F.sync0 :: F.sync1 :: rest := by
  unfold headerPair
  split
  · rename_i a b rest
    simp only [decide_eq_true_eq]
    constructor
    · rintro ⟨rfl, rfl⟩; exact ⟨rest, rfl⟩
    · rintro ⟨r, hr⟩; cases hr; exact ⟨rfl, rfl⟩
  · rename_i hne
    constructor
    · intro h; cases h
    · rintro ⟨rest, rfl⟩; exact absurd rfl (hne _ _ rest)

theorem headerResolves_iff {cat : Catalog} {F : Family} {bs : List Byte} {fid : FormatId} {len : Nat} :
    headerResolves cat F bs fid len = true ↔ ∃ m0 m1, bs[F.hdrLen - 2]? = some m0 ∧ bs[F.hdrLen - 1]? = some m1 ∧
      cat.resolve F m0 m1 = .format fid len := by
  unfold headerResolves
  split
  · rename_i m0 m1 h0 h1
    simp only [decide_eq_true_eq, h0, h1, Option.some.injEq]
    constructor
    · intro h; exact ⟨m0, m1, rfl, rfl, h⟩
    · rintro ⟨_, _, rfl, rfl, h⟩; exact h
  · rename_i hne
    constructor
    · intro h; cases h
    · rintro ⟨m0, m1, h0, h1, -⟩; exact absurd h1 (hne m0 m1 h0)

/-- I2 (R27). -/
theorem framingOk_header {s : State} (hs : s.st = .header) :
    s.framingOk = true ↔ ∃ F rest, s.candidate = some (F.sync0 :: F.sync1 :: rest) ∧
      s.cat.families[s.fam]? = some F ∧ s.cnt < F.hdrLen := by
  simp only [State.framingOk, hs]
  split
  · rename_i bs F hb hF
    simp only [Bool.and_eq_true, headerPair_iff, decide_eq_true_eq, hb, hF, Option.some.injEq]
    constructor
    · rintro ⟨⟨rest, rfl⟩, h⟩; exact ⟨F, rest, rfl, rfl, h⟩
    · rintro ⟨_, rest, rfl, rfl, h⟩; exact ⟨⟨rest, rfl⟩, h⟩
  · rename_i hne
    constructor
    · intro h; cases h
    · rintro ⟨F, rest, h1, h2, -⟩; exact absurd h2 (hne _ F h1)

/-- I3 (R27). -/
theorem framingOk_accum {s : State} (hs : s.st = .accum) :
    s.framingOk = true ↔ ∃ F rest m0 m1, s.candidate = some (F.sync0 :: F.sync1 :: rest) ∧
      s.cat.families[s.fam]? = some F ∧ F.hdrLen ≤ s.cnt ∧ s.cnt < s.len ∧ s.len ≤ s.cat.bufSize ∧
      (F.sync0 :: F.sync1 :: rest)[F.hdrLen - 2]? = some m0 ∧ (F.sync0 :: F.sync1 :: rest)[F.hdrLen - 1]? = some m1 ∧
      s.cat.resolve F m0 m1 = .format s.fmt s.len := by
  simp only [State.framingOk, hs]
  split
  · rename_i bs F hb hF
    simp only [Bool.and_eq_true, headerPair_iff, headerResolves_iff, decide_eq_true_eq, hb, hF, Option.some.injEq]
    constructor
    · rintro ⟨⟨⟨⟨⟨rest, rfl⟩, h1⟩, h2⟩, h3⟩, m0, m1, h4, h5, h6⟩
      exact ⟨F, rest, m0, m1, rfl, rfl, h1, h2, h3, h4, h5, h6⟩
    · rintro ⟨_, rest, m0, m1, rfl, rfl, h1, h2, h3, h4, h5, h6⟩
      exact ⟨⟨⟨⟨⟨rest, rfl⟩, h1⟩, h2⟩, h3⟩, m0, m1, h4, h5, h6⟩
  · rename_i hne
    constructor
    · intro h; cases h
    · rintro ⟨F, rest, m0, m1, h1, h2, -⟩; exact absurd h2 (hne _ F h1)

/-- A good state is never in the transient state (R22). -/
theorem framingOk_complete {s : State} (hs : s.st = .complete) : s.framingOk = false := by
  simp [State.framingOk, hs]

/-! ## COMPLETE on the candidate -/

/-- A whole frame in the buffer of a good ACCUM state: its last byte appended, COMPLETE is exec of a well-formed
instruction whose bytes are the candidate (R26, R161, R162). -/
theorem microComplete_of_inv {s t : State} {b : Byte} {bs : List Byte} (hinv : s.inv = true) (hst : s.st = .accum)
    (hlast : s.cnt + 1 = s.len) (hc : s.candidate = some bs) (ha : s.append b = some t) :
    ∃ f, f.wf s.cat s.fmt = true ∧ f.bytes = bs ++ [b] ∧ microComplete t = completeFrame s.fmt f t := by
  obtain ⟨hwf, -, -, -, hfr⟩ := inv_iff.1 hinv
  obtain ⟨F, rest, m0, m1, hc', hF, hh, -, hbuf, h0, h1, hr⟩ := (framingOk_accum hst).1 hfr
  obtain rfl : bs = F.sync0 :: F.sync1 :: rest := by simpa [hc] using hc'
  have hmem := List.mem_of_getElem? hF
  have hlen := candidate_length hc
  obtain ⟨r1, r2, r3, -⟩ := wf_resolve hwf hmem hr
  have hH := wf_header hwf hmem
  have hct := candidate_push b hc
  obtain ⟨-, rfl⟩ := append_eq_some.1 ha
  have hfam := familyOf_index hwf hF
  obtain ⟨f, hf, hf0, hf1⟩ := splitFrame_sync (h := F.hdrLen) (w := (s.cat.format s.fmt).cks.width)
    (a := F.sync0) (b := F.sync1) (rest := rest ++ [b]) (by omega)
    (by simp only [List.length_append, List.length_cons, List.length_nil] at hlen ⊢; omega)
  have hL : ((F.sync0 :: F.sync1 :: rest) ++ [b]).length = s.len := by simp only [List.length_append, hlen]; simpa using hlast
  obtain ⟨g1, g2, g3, -, -⟩ := splitFrame_bytes hf
  have hbytes : f.bytes = (F.sync0 :: F.sync1 :: rest) ++ [b] := g1
  refine ⟨f, ?_, hbytes, ?_⟩
  · refine frame_wf_iff.2 ⟨s.fam, F, m0, m1, by rw [hf0, hf1]; exact hfam, g2, g3, ?_, ?_, ?_, ?_⟩
    · rw [hbytes, hL]; simp [Catalog.lengthOk, r1, r2]
    · rw [hbytes, List.getElem?_append_left (by omega)]; exact h0
    · rw [hbytes, List.getElem?_append_left (by omega)]; exact h1
    · rw [hbytes, hL]; exact hr
  · have hrange : (s.push b).readRange 0 s.len = some f.bytes := by
      rw [hbytes, ← hct, State.candidate, ← hlast]
      rfl
    have hsplit : s.cat.split s.fmt f.bytes = some f := by
      rw [hbytes]
      simp only [Catalog.split, List.cons_append, hfam]
      exact hf
    simp only [microComplete, State.push_len, hrange, State.push_cat, State.push_fmt, hsplit, exec_ofFormat]

end Sys2Proof.Machine
end

