-- ==== Sys2Proof/Laws/PerInstr.lean ====
section
/-! SUPPORT. Facts of every instruction as syntax, one lemma per constructor: how many bytes its encoding has. -/

namespace Sys2Proof.Laws.EncodedLength

/-- The encoding of a well-formed instruction has at least 4 bytes (R263) and at most `BUF_SIZE`, or 260 for the outbound
command frame (R159, R199). -/
def Statement (i : Instr) : Prop :=
  ∀ cat : Catalog, cat.wf = true → i.wf cat = true →
    4 ≤ (encode cat i).length ∧ (encode cat i).length ≤ max cat.bufSize 260

theorem ofFrame {cat : Catalog} {fid : FormatId} {f : Frame} (hc : cat.wf = true) (hf : f.wf cat fid = true) :
    4 ≤ f.bytes.length ∧ f.bytes.length ≤ max cat.bufSize 260 := by
  obtain ⟨h1, -, h3, h4, -⟩ := Machine.frame_wf_length hc hf
  omega

theorem normalNoQuality (f : Frame) : Statement (.normalNoQuality f) := fun _ hc hf => ofFrame hc hf

theorem normalQuality (f : Frame) : Statement (.normalQuality f) := fun _ hc hf => ofFrame hc hf

theorem ywQuality (f : Frame) : Statement (.ywQuality f) := fun _ hc hf => ofFrame hc hf

theorem fsTestQuality (f : Frame) : Statement (.fsTestQuality f) := fun _ hc hf => ofFrame hc hf

theorem t10Quality (f : Frame) : Statement (.t10Quality f) := fun _ hc hf => ofFrame hc hf

theorem errorFault (f : Frame) : Statement (.errorFault f) := fun _ hc hf => ofFrame hc hf

theorem upBoardInfo (f : Frame) : Statement (.upBoardInfo f) := fun _ hc hf => ofFrame hc hf

theorem downBoardInfo (f : Frame) : Statement (.downBoardInfo f) := fun _ hc hf => ofFrame hc hf

theorem cmd (code : Byte) (payload : List Byte) : Statement (.cmd code payload) := by
  intro cat _ h
  have hp : payload.length ≤ 255 := by simpa [Instr.wf, payloadOk] using h
  simp only [encode, commandFrame, List.length_append, List.length_cons, List.length_nil]
  omega

end Sys2Proof.Laws.EncodedLength
end

