-- ==== Sys2Proof/Tests/Slice0.lean ====
section
/-! SUPPORT. The model's own tests: words written out from the spec, ill-formed terms the checks refuse, one step per
instruction, and for each statement a concrete state that meets its hypotheses. -/

namespace Sys2Proof.Tests

open Sys2Proof Sys2Proof.Machine

/-! ## Helpers -/

/-- The worked example of R191. -/
def frameNormalNoQuality : List Byte :=
  [0x55, 0xAA, 0x01, 0x08, 0x00, 0x4B, 0x80, 0xF7, 0xF4, 0x01, 0xF5, 0x01, 0xF6, 0x01, 0xF7, 0x01, 0xF8, 0x01, 0xF9,
   0x01, 0xFA, 0x01, 0xFB, 0x01, 0x00, 0xA1, 0x0F, 0x7B]

/-- The worked example of R192. -/
def frameNormalQuality : List Byte :=
  [0x55, 0xAA, 0x03, 0x08, 0x00, 0x4B, 0x80, 0xA2, 0xE8, 0x03, 0x0A, 0xF2, 0x03, 0x0B, 0xFC, 0x03, 0x0C, 0x05, 0x80,
   0x63, 0x10, 0x04, 0x0E, 0x1A, 0x04, 0x0F, 0x24, 0x04, 0x10, 0x2E, 0x04, 0x11, 0x40, 0xA4, 0xF5, 0x30]

/-- The worked example of R193. -/
def frameYwQuality : List Byte :=
  [0x55, 0xAA, 0x04, 0x08, 0x00, 0x4B, 0xC0, 0xF9, 0x2C, 0x01, 0x00, 0x2C, 0x01, 0x30, 0x2C, 0x01, 0x60, 0x2C, 0x01,
   0x90, 0x2C, 0x01, 0xC0, 0x2C, 0x01, 0xF0, 0x2C, 0x01, 0x20, 0x2C, 0x01, 0x50, 0x20, 0xA0, 0xB0, 0x1F]

/-- The worked example of R194. -/
def frameFsTestQuality : List Byte :=
  [0x55, 0xAA, 0x05, 0x08, 0x80, 0x02, 0x00, 0xA0, 0x64, 0x00, 0x00, 0x00, 0xC8, 0x00, 0xE8, 0x03, 0x2C, 0x01, 0xD0,
   0x07, 0x90, 0x01, 0xB8, 0x0B, 0xF4, 0x01, 0xA0, 0x0F, 0x58, 0x02, 0x88, 0x13, 0xBC, 0x02, 0x70, 0x17, 0x20, 0x03,
   0x58, 0x1B, 0xC0, 0xA1, 0xBC]

/-- The worked example of R195. -/
def frameT10Quality : List Byte :=
  [0x55, 0xAA, 0x06, 0x0C, 0x10, 0x0E, 0xB8, 0xAB, 0xD0, 0x07, 0xC8, 0xD1, 0x07, 0xC9, 0xD2, 0x07, 0xCA, 0xD3, 0x07,
   0xCB, 0xD4, 0x07, 0xCC, 0xD5, 0x07, 0xCD, 0xD6, 0x07, 0xCE, 0xD7, 0x07, 0xCF, 0xD8, 0x07, 0xD0, 0xD9, 0x07, 0xD1,
   0xDA, 0x07, 0xD2, 0xDB, 0x07, 0xD3, 0x04, 0xB0, 0xE7]

/-- The worked example of R196. -/
def frameErrorFault : List Byte :=
  [0xA5, 0xEE, 0x01, 0x01, 0x02, 0x97]

/-- The worked example of R197. -/
def frameUpBoardInfo : List Byte :=
  [0xA5, 0x5A, 0x02, 0x00, 0x01]

/-- The worked example of R198. -/
def frameDownBoardInfo : List Byte :=
  [0x5A, 0xA5, 0x10, 0x03, 0xDE, 0xAD, 0xBE, 0x5B]

/-- The state FEED leaves; `s` itself where FEED stops. -/
def fed (bytes : List Byte) (s : State) : State :=
  match feed bytes s with
  | .next t => t
  | _ => s

/-- The state after `bytes` from reset, with the next operations issued. -/
def ready (bytes : List Byte) (ops : List Op) : State := (fed bytes State.reset).withInput ops

/-- The state a step leaves; `s` itself where it stops. -/
def stepped (s : State) : State :=
  match step s with
  | .next t => t
  | _ => s

/-- Whether a step has a next state. -/
def steps (s : State) : Bool :=
  match step s with
  | .next _ => true
  | _ => false

theorem step_of_steps {s : State} (h : steps s = true) : step s = .next (stepped s) := by
  unfold steps at h
  unfold stepped
  split at h
  · rename_i t ht; simp only [ht]
  · cases h

/-- Whether `FEED` completes. -/
def feeds (bytes : List Byte) (s : State) : Bool :=
  match feed bytes s with
  | .next _ => true
  | _ => false

theorem feed_of_feeds {bytes : List Byte} {s : State} (h : feeds bytes s = true) : feed bytes s = .next (fed bytes s) := by
  unfold feeds at h
  unfold fed
  split at h
  · rename_i t ht; simp only [ht]
  · cases h

/-- The batch of the last event, if it is one. -/
def lastBatch (s : State) : Option Batch :=
  match s.out.getLast? with
  | some (.pointsOut b) => some b
  | _ => none

/-- A frame of `CAT_DEFAULT` in its parts. -/
def frameOf (bytes : List Byte) : Option Instr :=
  match decode catDefault bytes with
  | .ok (i, []) => some i
  | _ => none

/-! ## Decoding words written out from the spec -/

theorem test_decode_normalNoQuality : decode catDefault frameNormalNoQuality =
    .ok (.normalNoQuality
      ⟨0x55, 0xAA, [0x01, 0x08], [0x00, 0x4B, 0x80, 0xF7, 0xF4, 0x01, 0xF5, 0x01, 0xF6, 0x01, 0xF7, 0x01, 0xF8, 0x01,
       0xF9, 0x01, 0xFA, 0x01, 0xFB, 0x01, 0x00, 0xA1], [0x0F, 0x7B]⟩, []) := rfl

theorem test_decode_normalQuality : decode catDefault frameNormalQuality =
    .ok (.normalQuality
      ⟨0x55, 0xAA, [0x03, 0x08], [0x00, 0x4B, 0x80, 0xA2, 0xE8, 0x03, 0x0A, 0xF2, 0x03, 0x0B, 0xFC, 0x03, 0x0C, 0x05,
       0x80, 0x63, 0x10, 0x04, 0x0E, 0x1A, 0x04, 0x0F, 0x24, 0x04, 0x10, 0x2E, 0x04, 0x11, 0x40, 0xA4], [0xF5, 0x30]⟩, []) := rfl

theorem test_decode_ywQuality : decode catDefault frameYwQuality =
    .ok (.ywQuality
      ⟨0x55, 0xAA, [0x04, 0x08], [0x00, 0x4B, 0xC0, 0xF9, 0x2C, 0x01, 0x00, 0x2C, 0x01, 0x30, 0x2C, 0x01, 0x60, 0x2C,
       0x01, 0x90, 0x2C, 0x01, 0xC0, 0x2C, 0x01, 0xF0, 0x2C, 0x01, 0x20, 0x2C, 0x01, 0x50, 0x20, 0xA0], [0xB0, 0x1F]⟩, []) := rfl

theorem test_decode_fsTestQuality : decode catDefault frameFsTestQuality =
    .ok (.fsTestQuality
      ⟨0x55, 0xAA, [0x05, 0x08], [0x80, 0x02, 0x00, 0xA0, 0x64, 0x00, 0x00, 0x00, 0xC8, 0x00, 0xE8, 0x03, 0x2C, 0x01,
       0xD0, 0x07, 0x90, 0x01, 0xB8, 0x0B, 0xF4, 0x01, 0xA0, 0x0F, 0x58, 0x02, 0x88, 0x13, 0xBC, 0x02, 0x70, 0x17,
       0x20, 0x03, 0x58, 0x1B, 0xC0, 0xA1], [0xBC]⟩, []) := rfl

theorem test_decode_t10Quality : decode catDefault frameT10Quality =
    .ok (.t10Quality
      ⟨0x55, 0xAA, [0x06, 0x0C], [0x10, 0x0E, 0xB8, 0xAB, 0xD0, 0x07, 0xC8, 0xD1, 0x07, 0xC9, 0xD2, 0x07, 0xCA, 0xD3,
       0x07, 0xCB, 0xD4, 0x07, 0xCC, 0xD5, 0x07, 0xCD, 0xD6, 0x07, 0xCE, 0xD7, 0x07, 0xCF, 0xD8, 0x07, 0xD0, 0xD9,
       0x07, 0xD1, 0xDA, 0x07, 0xD2, 0xDB, 0x07, 0xD3, 0x04, 0xB0], [0xE7]⟩, []) := rfl

theorem test_decode_errorFault : decode catDefault frameErrorFault =
    .ok (.errorFault
      ⟨0xA5, 0xEE, [0x01, 0x01], [0x02], [0x97]⟩, []) := rfl

theorem test_decode_upBoardInfo : decode catDefault frameUpBoardInfo =
    .ok (.upBoardInfo
      ⟨0xA5, 0x5A, [0x02, 0x00], [], [0x01]⟩, []) := rfl

theorem test_decode_downBoardInfo : decode catDefault frameDownBoardInfo =
    .ok (.downBoardInfo
      ⟨0x5A, 0xA5, [0x10, 0x03], [0xDE, 0xAD, 0xBE], [0x5B]⟩, []) := rfl

theorem test_decode_cmd : decodeCommand catDefault [0xA5, 0x5A, 0x02, 0x00, 0x01] = some (.cmd 0x02 [], []) := by decide

theorem test_encode_cmd : encode catDefault (.cmd 0x02 []) = [0xA5, 0x5A, 0x02, 0x00, 0x01] := by decide

/-- R90: the number of a row has `f[0]` least significant. -/
theorem test_table_word : (decodeTableWord 32 0x0803AA55).isSome = true ∧ (decodeTableWord 16 0xEEA5).isSome = true ∧
    decodeTableWord 16 0x5AA5 = some (.upBoardInfo ⟨0xA5, 0x5A, [0x00, 0x00], [], [0x00]⟩) := by decide +kernel

/-- A row's frame, its missing bytes zero, runs as the first step; A5 EE 00 00 00 ends in 00 and its sum is 93. -/
theorem test_withFetchWord : (stepped (State.reset.withFetchWord 16 0xEEA5)).labels = [.drop .dropCksum] ∧
    (stepped (State.reset.withFetchWord 32 0x0801AA55)).labels = [.drop .dropCksum] := by decide +kernel

theorem test_decode_rejects : decode catDefault [0xAA, 0x55] = .error .notFirst ∧
    decode catDefault [0x55, 0x55, 0xAA] = .error .notPair ∧
    decode catDefault [0x55, 0xAA, 0x01, 0x0C] = .error .unknownModel ∧
    decode catDefault [0xA5, 0x5A, 0x02, 0x01, 0x00] = .error .truncated ∧
    decode catDefault [0xA5] = .error .truncated := by decide

/-! ## Ill-formed terms, one per check of WellFormed -/

theorem test_catDefault_wf : catDefault.wf = true := by decide +kernel

theorem test_w1_no_family : { catDefault with families := [] }.wf = false := by decide +kernel

theorem test_w1_same_pair :
    { catDefault with families := ⟨"X", 0xA5, 0x5A, 4, .plen .upBoardInfo 5⟩ :: familiesDefault }.wf = false := by
  decide +kernel

theorem test_w2_model_header :
    { catDefault with families := [⟨"X", 1, 2, 3, .model [⟨1, 8, .normalNoQuality⟩]⟩] }.wf = false := by decide +kernel

theorem test_w2_plen_header :
    { catDefault with families := [⟨"X", 1, 2, 2, .plen .upBoardInfo 5⟩] }.wf = false := by decide +kernel

theorem test_w4_header_fills_buffer : { catDefault with bufSize := 4 }.wf = false := by decide +kernel

/-- R12 with empty ENTRIES bounds no header by the buffer: a header that fills it, and one that does not fit (log 9). -/
def catEmpty (hdrLen : Nat) : Catalog :=
  { catDefault with bufSize := 4, families := [⟨"X", 1, 2, hdrLen, .model []⟩] }

/-- R153 to R157: the fourth byte completes the header in `buf[3]`, and no model code is known. -/
theorem test_empty_entries : (catEmpty 4).wf = true ∧ (catEmpty 4).headersFit = true ∧
    let t := fed [1, 2, 3, 4] { State.reset with cat := catEmpty 4 }
    t.labels = [.drop .dropModel] ∧ t.st = .sync0 ∧ t.cnt = 0 ∧ t.out = [] := by decide +kernel

theorem test_header_beyond_buffer : (catEmpty 5).wf = true ∧ (catEmpty 5).headersFit = false := by decide +kernel

theorem test_w3_entry_of_info :
    { catDefault with families := [⟨"X", 1, 2, 4, .model [⟨1, 8, .upBoardInfo⟩]⟩] }.wf = false := by decide +kernel

theorem test_w3_plen_of_pc :
    { catDefault with families := [⟨"X", 1, 2, 4, .plen .normalQuality 5⟩] }.wf = false := by decide +kernel

theorem test_model_code_twice :
    { catDefault with families := [⟨"X", 1, 2, 4, .model [⟨1, 8, .normalQuality⟩, ⟨1, 8, .ywQuality⟩]⟩] }.wf = false := by
  decide +kernel

theorem test_w4_overhead :
    { catDefault with families := [⟨"X", 1, 2, 4, .plen .upBoardInfo 4⟩] }.wf = false := by decide +kernel

theorem test_w4_buffer : { catDefault with bufSize := 259 }.wf = false ∧ { catDefault with bufSize := 260 }.wf = true := by
  decide +kernel

theorem test_w5_fold_of_info :
    { catDefault with formats := { formatsDefault with upBoardInfo := ⟨"X", .fold16, .info⟩ } }.wf = false := by
  decide +kernel

/-- A layout to spoil one field of: `NormalNoQuality`'s (R102). -/
def layout (len ptsOff lastOff p u : Nat) : FormatRecord :=
  { name := "X", cks := .fold16,
    kind := .pc { len := len, n := 8, p := p, qkind := .none, speedOff := 4, firstOff := 6, ptsOff := ptsOff,
                  lastOff := lastOff, u := u, bias := 0xA000, speedScale := 1, qScale := 0 } }

/-- `CAT_DEFAULT` with that record as format 0. -/
def spoiled (r : FormatRecord) : Catalog := { catDefault with formats := { formatsDefault with normalNoQuality := r } }

theorem test_layout_wf : (spoiled (layout 28 8 24 2 64)).wf = true := by decide +kernel

theorem test_w5_odd_fold : (spoiled (layout 29 8 24 2 64)).wf = false := by decide +kernel

theorem test_w6_field_past_checksum : (spoiled (layout 28 8 25 2 64)).wf = false := by decide +kernel

theorem test_w6_points_past_checksum : (spoiled (layout 28 11 24 2 64)).wf = false := by decide +kernel

theorem test_w6_point_size : (spoiled (layout 28 8 24 1 64)).wf = false := by decide +kernel

theorem test_w6_unit : (spoiled (layout 28 8 24 2 0)).wf = false := by decide +kernel

theorem test_w7_table : { catDefault with crc8Table := crc8TableDefault.tail }.wf = false := by decide +kernel

theorem test_frame_wf : (⟨0xA5, 0x5A, [0x02, 0x00], [], [0x01]⟩ : Frame).wf catDefault .upBoardInfo = true := by decide

theorem test_frame_no_family : (⟨0xA5, 0x5B, [0x02, 0x00], [], [0x01]⟩ : Frame).wf catDefault .upBoardInfo = false := by
  decide

theorem test_frame_header_length : (⟨0xA5, 0x5A, [0x02], [0x00], [0x01]⟩ : Frame).wf catDefault .upBoardInfo = false := by
  decide

theorem test_frame_checksum_width : (⟨0xA5, 0x5A, [0x02, 0x01], [], [0x00, 0x01]⟩ : Frame).wf catDefault .upBoardInfo =
    false := by decide

theorem test_frame_length : (⟨0xA5, 0x5A, [0x02, 0x01], [], [0x01]⟩ : Frame).wf catDefault .upBoardInfo = false := by decide

theorem test_frame_format : (⟨0xA5, 0x5A, [0x02, 0x00], [], [0x01]⟩ : Frame).wf catDefault .errorFault = false := by decide

theorem test_payload_too_long : (Instr.cmd 0x02 (List.replicate 256 0)).wf catDefault = false ∧
    (Instr.cmd 0x02 (List.replicate 255 0)).wf catDefault = true := by decide +kernel

/-! ## Checksums: the values of R121 to R134 -/

theorem test_fold16 : fold16 [0x01, 0x00, 0x02, 0x00] = some 4 ∧ fold16 [0x02, 0x00, 0x01, 0x00] = some 5 ∧
    fold16 [0xFF, 0x7F] = some 0x7FFF ∧ fold16 [0xFF, 0xFF] = some 0 ∧ fold16 [0x00, 0x80] = some 1 ∧
    fold16 [0xFF, 0xFF, 0xFF, 0xFF] = some 2 ∧ fold16 [0x00, 0x80, 0x00, 0x00] = some 2 := by decide

theorem test_crc8 : crc8 catDefault [0x01] = some 0x4D ∧ crc8 catDefault [0x55, 0xAA, 0x06, 0x0C] = some 0x37 ∧
    crc8 catDefault [0x31, 0x32, 0x33, 0x34, 0x35, 0x36, 0x37, 0x38, 0x39] = some 0xC3 := by decide +kernel

theorem test_crc8_table : ∀ i : Byte, catDefault.crc8Table[i.toNat]? = some (crc8Entry 0x4D i) := by decide +kernel

theorem test_validators : validAdd8 frameUpBoardInfo = .next true ∧ validAdd8 [0xA5, 0x5A, 0x02, 0x00, 0x02] = .next false ∧
    validFold16 [0x01, 0x00, 0x02, 0x00, 0x04, 0x00] = .next true ∧
    validFold16 [0x01, 0x00, 0x02, 0x00, 0x04, 0x80] = .next false ∧
    validFold16 [0x01, 0x00, 0x02] = .refused .foldOddLength := ⟨rfl, rfl, rfl, rfl, rfl⟩

/-! ## One frame of each format, and a bad checksum -/

/-- R191: speed 300 rpm, angles 350, 352, .., 4, distances 500..507. -/
theorem test_normalNoQuality : (lastBatch (fed frameNormalNoQuality State.reset)).map (fun b =>
    (b.speedRpm, b.points.map fun p => (p.angleDeg, p.distanceMm, p.quality))) =
    some (300, [(350, 500, 0), (352, 501, 0), (354, 502, 0), (356, 503, 0), (358, 504, 0), (0, 505, 0), (2, 506, 0),
      (4, 507, 0)]) := by decide +kernel

/-- R192: point 3 is the sentinel 0x8005 with quality 0x63, decoded to distance 0 (R226, R227). -/
theorem test_normalQuality :
    (lastBatch (fed frameNormalQuality State.reset)).map (fun b => (b.firstAngle, b.lastAngle, b.angleDiffer)) =
      some (640, 1088, 1) ∧
    ((lastBatch (fed frameNormalQuality State.reset)).bind (fun b => b.points[3]?)).map
      (fun p => (p.distRaw, p.distanceMm, p.quality)) = some (0x8005, 0, 99) := by decide +kernel

/-- R193: the qualities are exact. -/
theorem test_ywQuality : (lastBatch (fed frameYwQuality State.reset)).map (fun b => b.points.map Point.quality) =
    some [0, 1, 2, 3, 4, 5, 2 / 3, 5 / 3] := by decide +kernel

/-- R194: 10 rpm, angles 0..7, qualities 0..7000. -/
theorem test_fsTestQuality : (lastBatch (fed frameFsTestQuality State.reset)).map (fun b =>
    (b.speedRpm, b.points.map fun p => (p.angleDeg, p.distanceMm, p.quality))) =
    some (10, [(0, 100, 0), (1, 200, 1000), (2, 300, 2000), (3, 400, 3000), (4, 500, 4000), (5, 600, 5000),
      (6, 700, 6000), (7, 800, 7000)]) := by decide +kernel

/-- R195: 600 rpm, angles 30..41. -/
theorem test_t10Quality : (lastBatch (fed frameT10Quality State.reset)).map (fun b =>
    (b.speedRpm, b.points.map Point.angleDeg)) =
    some (600, [30, 31, 32, 33, 34, 35, 36, 37, 38, 39, 40, 41]) := by decide +kernel

/-- R196. -/
theorem test_errorFault : (fed frameErrorFault State.reset).out =
    [.frameOut .errorFault frameErrorFault, .infoOut ⟨.errorFault, 0x01, 0x01, [0x02]⟩] := by decide +kernel

/-- R197. -/
theorem test_upBoardInfo : (fed frameUpBoardInfo State.reset).out =
    [.frameOut .upBoardInfo frameUpBoardInfo, .infoOut ⟨.upBoardInfo, 0x02, 0x00, []⟩] := by decide +kernel

/-- R198, R236. -/
theorem test_downBoardInfo : (fed frameDownBoardInfo State.reset).out =
    [.frameOut .downBoardInfo frameDownBoardInfo,
     .infoOut ⟨.downBoardInfo, 0x10, 0x03, [0xDE, 0xAD, 0xBE]⟩] := by decide +kernel

/-- R163 with the last byte of R192's frame changed to 31. -/
theorem test_bad_checksum : (fed (frameNormalQuality.dropLast ++ [0x31]) State.reset).out = [] ∧
    (fed (frameNormalQuality.dropLast ++ [0x31]) State.reset).labels = [.drop .dropCksum] := by decide +kernel

/-- R199. -/
theorem test_cmd : (stepped (State.reset.withInput [.sendCommand 0x02 []])).commands = [[0xA5, 0x5A, 0x02, 0x00, 0x01]] := by
  decide +kernel

theorem test_cmd_too_long : step (State.reset.withInput [.sendCommand 0x02 (List.replicate 256 0)]) =
    .refused .payloadTooLong := by
  have h : catDefault.wf = true := by decide +kernel
  simp only [step, takeOp, State.withInput, State.reset, h, if_true, runOp, exec, execCmd]
  rw [if_neg (by decide +kernel)]

/-- R290, vector P6: the bogus header swallows two good frames. -/
theorem test_swallow : let s := fed ([0xA5, 0x5A, 0x04, 0x20] ++ [0xA5, 0x5A, 0x04, 0x03, 0x01, 0x02, 0x03, 0x0C] ++
      [0xA5, 0x5A, 0x04, 0x03, 0x01, 0x02, 0x03, 0x0C]) State.reset
    s.out = [] ∧ s.st = .accum ∧ s.cnt = 20 ∧ s.len = 37 := by decide +kernel

/-- R155: 55, then 5A, then A5 is family DN; R294: A5 5A is family 1, A5 EE family 3. -/
theorem test_pairs : (fed [0x55, 0x5A, 0xA5] State.reset).fam = 2 ∧ (fed [0xA5, 0x5A] State.reset).fam = 1 ∧
    (fed [0xA5, 0xEE] State.reset).fam = 3 := by decide +kernel

/-- A negative span, which R225 allows (log 24): 0 + 23040 - 60000. -/
theorem test_negative_span : angleSpan
    { len := 28, n := 8, p := 2, qkind := .none, speedOff := 4, firstOff := 6, ptsOff := 8, lastOff := 24, u := 64,
      bias := 0xA000, speedScale := 1, qScale := 0 } (60000 - 40960) (0 - 40960) = -36960 := by decide

/-- R56, outside the invariant: a resolved length of 4 leaves no room for the checksum field at offset 4. -/
theorem test_short_frame_faults : let s := { fed [0xA5, 0x5A, 0x01] State.reset with
      st := .accum, fmt := .upBoardInfo, len := 4 }
    feedByte 0x00 s = .fault .readPastFrame := by rfl

/-- R80: a header and a checksum field fill five bytes and do not fit in four. -/
theorem test_split : (splitFrame 4 1 [0xA5, 0x5A, 0x02, 0x00, 0x01]).map Frame.bytes =
      some [0xA5, 0x5A, 0x02, 0x00, 0x01] ∧
    splitFrame 4 1 [0xA5, 0x5A, 0x02, 0x00] = none ∧ splitFrame 4 2 [0xA5, 0x5A, 0x02, 0x00, 0x01] = none ∧
    infoFields .upBoardInfo 4 [0xA5, 0x5A, 0x02, 0x00] = none := by decide

/-! ## Witnesses: a state and operands that meet the hypotheses of each statement -/

theorem test_wit_EncodedInstructionDecodesBack :
    (Instr.errorFault ⟨0xA5, 0xEE, [0x01, 0x01], [0x02], [0x97]⟩).wf catDefault = true ∧
    (Instr.errorFault ⟨0xA5, 0xEE, [0x01, 0x01], [0x02], [0x97]⟩).inbound ≠ none ∧
    (Instr.cmd 0x02 [0x03]).wf catDefault = true ∧ (Instr.cmd 0x02 [0x03]).inbound = none := by decide

theorem test_wit_DecodedBytesEncodeBack : catDefault.wf = true ∧
    decode catDefault (frameErrorFault ++ [0x00]) = .ok (.errorFault ⟨0xA5, 0xEE, [0x01, 0x01], [0x02], [0x97]⟩, [0x00]) := by
  decide +kernel

theorem test_wit_StepRunsDecodedFrame :
    let s := ready [0xA5, 0x5A, 0x02, 0x00] [.feedByte 0x01]
    s.inv = true ∧ s.st = .accum ∧ s.cnt + 1 = s.len ∧ s.input = [.feedByte 0x01] ∧
    s.candidate = some [0xA5, 0x5A, 0x02, 0x00] ∧
    decode s.cat ([0xA5, 0x5A, 0x02, 0x00] ++ [0x01]) = .ok (.upBoardInfo ⟨0xA5, 0x5A, [0x02, 0x00], [], [0x01]⟩, []) := by
  decide +kernel

theorem test_wit_FinalByteAlwaysDecodes : let s := ready frameT10Quality.dropLast []
    s.inv = true ∧ s.st = .accum ∧ s.cnt + 1 = s.len ∧ s.candidate = some frameT10Quality.dropLast := by decide +kernel

theorem test_wit_Fold16DependsOnThirtyBits : ([0x01, 0x00, 0x02, 0x00] : List Byte).length % 2 = 0 ∧
    foldWordSum [0x01, 0x00, 0x02, 0x00] = 4 := by decide

theorem test_wit_Fold16LeadingWordsUnprotected : ([] : List Byte).length % 2 = 0 ∧
    (List.replicate 60 (0x01 : Byte)).length % 2 = 0 ∧ 60 ≤ (List.replicate 60 (0x01 : Byte)).length := by decide

theorem test_wit_Fold16HighBitNeverAccepted : fold16 [0xFF, 0x7F] = some 0x7FFF ∧
    ([0x01, 0x00, 0x04, 0x80] : List Byte)[3]? = some 0x80 ∧ (0x80 : Byte).getLsbD 7 = true := by decide

theorem test_wit_Crc8WholeFrameRelation : crc8 catDefault [0x01] = some 0x4D ∧ catDefault.crc8Table.length = 256 ∧
    catDefault.crc8Table[0]? = some catDefault.crc8Residue ∧ catDefault.crc8Table.Nodup ∧
    validCrc8 catDefault [0x01, 0x4D] = .next true :=
  ⟨by decide +kernel, by decide +kernel, by decide +kernel, by decide +kernel, by
    have h : crc8 catDefault [0x01] = some 0x4D := by decide +kernel
    have h1 : ([0x01, 0x4D] : List Byte).take 1 = [0x01] := rfl
    simp only [validCrc8, List.length_cons, List.length_nil, h1, h]
    rfl⟩

theorem test_wit_ValidatorsCompareTrailingField : catDefault.crc8Table.length = 256 ∧ ([] : List Byte).length % 2 = 0 := by
  decide +kernel

theorem test_wit_SealedFramesAreAccepted : catDefault.crc8Table.length = 256 ∧ ([0x01, 0x02] : List Byte).length % 2 = 0 ∧
    catDefault.crc8Table[0]? = some catDefault.crc8Residue := by decide +kernel

theorem test_wit_SingleByteChangeIsDetected : (0x00 : Byte) ≠ 0xFF ∧ catDefault.crc8Table.length = 256 ∧
    catDefault.crc8Table.Nodup := by decide +kernel

theorem test_wit_ResetReturnsToSync0 : let s := ready [0x55, 0xAA, 0x03] [.reset]
    s.cat.wf = true ∧ s.input = [.reset] ∧ s.st = .header := by decide +kernel

theorem test_wit_Sync0BuffersFirstSyncByte : let s := ready [] [.feedByte 0x55]
    let u := ready [] [.feedByte 0x00]
    s.inv = true ∧ s.st = .sync0 ∧ s.cat.inFirst 0x55 = true ∧ u.inv = true ∧ u.st = .sync0 ∧
    u.cat.inFirst 0x00 = false := by decide +kernel

theorem test_wit_Sync1PairSelectsFamily : let s := ready [0xA5] [.feedByte 0xEE]
    s.inv = true ∧ s.st = .sync1 ∧ s.candidate = some [0xA5] ∧ (s.cat.familyOf 0xA5 0xEE).map Prod.fst = some 3 := by
  decide +kernel

theorem test_wit_Sync1MismatchReexaminesByte : let s := ready [0x55] [.feedByte 0x5A]
    s.inv = true ∧ s.st = .sync1 ∧ s.candidate = some [0x55] ∧ s.cat.familyOf 0x55 0x5A = none ∧
    s.cat.inFirst 0x5A = true ∧ s.cat.familyOf 0x55 0x00 = none ∧ s.cat.inFirst 0x00 = false := by decide +kernel

theorem test_wit_HeaderCollectsBytes : let s := ready [0x55, 0xAA] [.feedByte 0x03]
    s.inv = true ∧ s.st = .header ∧ (s.cat.families[s.fam]?).map Family.hdrLen = some 4 ∧
    s.candidate = some [0x55, 0xAA] ∧ s.cnt + 1 < 4 := by decide +kernel

/-- Both clauses: the code 03 08 is known, the code 09 09 is not. -/
theorem test_wit_ModelCodeSelectsFormat : let s := ready [0x55, 0xAA, 0x03] [.feedByte 0x08]
    let u := ready [0x55, 0xAA, 0x09] [.feedByte 0x09]
    let entries := [⟨0x01, 0x08, .normalNoQuality⟩, ⟨0x03, 0x08, .normalQuality⟩, ⟨0x04, 0x08, .ywQuality⟩,
      ⟨0x05, 0x08, .fsTestQuality⟩, ⟨0x06, 0x0C, .t10Quality⟩]
    s.inv = true ∧ s.st = .header ∧ (s.cat.families[s.fam]?).map Family.mode = some (.model entries) ∧
    s.candidate = some [0x55, 0xAA, 0x03] ∧ s.cnt + 1 = 4 ∧ lookupModel 0x03 0x08 entries = some .normalQuality ∧
    u.inv = true ∧ u.st = .header ∧ (u.cat.families[u.fam]?).map Family.mode = some (.model entries) ∧
    u.candidate = some [0x55, 0xAA, 0x09] ∧ u.cnt + 1 = 4 ∧ lookupModel 0x09 0x09 entries = none := by decide +kernel

/-- The longest and the shortest frame (R158). -/
theorem test_wit_PayloadLengthSetsLength : let s := ready [0xA5, 0x5A, 0x02] [.feedByte 0xFF]
    s.inv = true ∧ s.st = .header ∧ (s.cat.families[s.fam]?).map Family.mode = some (.plen .upBoardInfo 5) ∧
    s.candidate = some [0xA5, 0x5A, 0x02] ∧ s.cnt + 1 = 4 ∧ (stepped s).len = 260 ∧
    (stepped (ready [0xA5, 0x5A, 0x02] [.feedByte 0x00])).len = 5 := by decide +kernel

theorem test_wit_DropLenNeverFires : let s := ready [0xA5, 0x5A, 0x02] [.feedByte 0xFF]
    s.input = [.feedByte 0xFF] ∧ step s = .next (stepped s) := ⟨rfl, step_of_steps (by decide +kernel)⟩

theorem test_wit_AccumCollectsBytes : let s := ready [0x55, 0xAA, 0x03, 0x08] [.feedByte 0x00]
    s.inv = true ∧ s.st = .accum ∧ s.candidate = some [0x55, 0xAA, 0x03, 0x08] ∧ s.cnt + 1 < s.len := by decide +kernel

/-- Both outcomes, of both kinds of format. -/
theorem test_wit_FinalByteValidatesFrame : let s := ready frameNormalQuality.dropLast [.feedByte 0x30]
    let u := ready frameErrorFault.dropLast [.feedByte 0x00]
    s.inv = true ∧ s.st = .accum ∧ s.candidate = some frameNormalQuality.dropLast ∧ s.cnt + 1 = s.len ∧
    (stepped s).labels = [.emit] ∧ u.inv = true ∧ u.st = .accum ∧ u.candidate = some frameErrorFault.dropLast ∧
    u.cnt + 1 = u.len ∧ (stepped u).labels = [.drop .dropCksum] := by decide +kernel

theorem test_wit_StepKeepsInvariant : let s := ready [0x55, 0xAA, 0x03] [.feedByte 0x08]
    s.inv = true ∧ step s = .next (stepped s) := ⟨by decide +kernel, step_of_steps (by decide +kernel)⟩

/-- A command payload of the greatest length can be issued. -/
theorem test_wit_GoodStateAlwaysSteps : let s := ready [0x55] [.sendCommand 0x02 (List.replicate 255 0)]
    s.inv = true ∧ s.nextOpOk = true := by decide +kernel

theorem test_wit_CandidateIsLastBytesFed : let s := ready [0x55] [.feedByte 0x5A]
    s.inv = true ∧ s.input = [.feedByte 0x5A] ∧ s.candidate = some [0x55] ∧ (stepped s).candidate = some [0x5A] := by
  decide +kernel

/-- Two states that differ in every field that is invalid in SYNC1. -/
theorem test_wit_InvalidBitsAreUnobservable : let s := ready [0x55] [.feedByte 0xAA]
    let t := { s with fam := 3, fmt := .t10Quality, len := 99, buf := insertCell 7 0xFF s.buf }
    s.inv = true ∧ t.inv = true ∧ s.nextOpOk = true ∧ s.candidate = t.candidate ∧ s.buf ≠ t.buf ∧ s.st = .sync1 := by
  decide +kernel

/-- Also GhostLabelsAreUnobservable, EachStepCarriesItsLabels, TraceGrowsByWholeFrames, CatalogNeverChanges. -/
theorem test_wit_step_of_a_byte : let s := ready [0x55] [.feedByte 0x00]
    s.input = [.feedByte 0x00] ∧ step s = .next (stepped s) ∧ (stepped s).labels = [.drop .dropSync1, .sync0Skip] :=
  ⟨rfl, step_of_steps (by decide +kernel), by decide +kernel⟩

/-- DiscardIsSilent at its second outcome. -/
theorem test_wit_DiscardIsSilent : let s := ready [0x55] [.feedByte 0x55]
    s.input = [.feedByte 0x55] ∧ step s = .next (stepped s) ∧ .drop .dropSync1 ∈ (stepped s).labels :=
  ⟨rfl, step_of_steps (by decide +kernel), by decide +kernel⟩

theorem test_wit_ChunkingIsUnobservable :
    feed [0x55, 0xAA] State.reset = .next (fed [0x55, 0xAA] State.reset) ∧
    (ready [] [.feedByte 0x55, .feedByte 0xAA, .reset]).input = [0x55, 0xAA].map Op.feedByte ++ [.reset] :=
  ⟨feed_of_feeds (by decide +kernel), rfl⟩

/-- Also EmittedFramesAreValidInput, BackToBackFramesAreAllEmitted: an ErrorFault frame is valid from reset. -/
theorem test_wit_ValidFrameIsEmitted : State.reset.inv = true ∧ State.reset.st = .sync0 ∧
    validFrame State.reset.cat .errorFault ⟨0xA5, 0xEE, [0x01, 0x01], [0x02], [0x97]⟩ :=
  ⟨by decide +kernel, rfl, by decide +kernel, rfl⟩

theorem test_wit_EmittedFramesAreValidInput : let xs := [0x00] ++ frameErrorFault ++ [0x55]
    feed xs State.reset = .next (fed xs State.reset) ∧
    (fed xs State.reset).out = State.reset.out ++ [.frameOut .errorFault frameErrorFault,
      .infoOut ⟨.errorFault, 0x01, 0x01, [0x02]⟩] := ⟨feed_of_feeds (by decide +kernel), by decide +kernel⟩

theorem test_wit_AccumSwallowsAnyBytes : let s := ready [0xA5, 0x5A, 0x04, 0x20] []
    s.inv = true ∧ s.st = .accum ∧ s.candidate = some [0xA5, 0x5A, 0x04, 0x20] ∧ s.cnt + frameUpBoardInfo.length < s.len := by
  decide +kernel

theorem test_wit_StutteredSyncIsFramed : State.reset.inv = true ∧ State.reset.st = .sync0 ∧
    (⟨"UP", 0xA5, 0x5A, 4, .plen .upBoardInfo 5⟩ : Family) ∈ State.reset.cat.families ∧
    State.reset.cat.familyOf 0xA5 0xA5 = none := by decide +kernel

theorem test_wit_IllFormedCatalogIsRefused : { State.reset with cat := { catDefault with families := [] } }.cat.wf = false := by
  decide +kernel

/-- Each clause of HeadersFitOrFault, and the premises of ResetStateIsGood. -/
theorem test_wit_HeadersFitOrFault : catDefault.wf = true ∧ catDefault.headersFit = true ∧
    (∀ F ∈ catDefault.families, F.mode ≠ .model [] ∧ catDefault.resolve F 0x03 0x08 ≠ .unknownModel) ∧
    let s := (fed [1, 2, 3, 4] { State.reset with cat := catEmpty 5 }).withInput [.feedByte 0]
    s.cat.wf = true ∧ s.st = .header ∧ (s.cat.families[s.fam]?).isSome = true ∧ s.cat.bufSize ≤ s.cnt := by
  decide +kernel

theorem test_wit_AppendIsReadBack : (State.reset.append 0x55).isSome = true ∧ Memory.wf State.reset.buf = true ∧
    ((fed [0x55] State.reset).append 0xAA).map State.candidate = some (some [0x55, 0xAA]) := by decide +kernel

theorem test_wit_DistanceSentinelDecodesToZero : let b := lastBatch (fed frameNormalQuality State.reset)
    (b.bind fun b => b.points[3]?).map Point.distRaw = some 0x8005 := by decide +kernel

/-- The layout of `NormalQuality` (R103), with its bias and unit. -/
theorem test_wit_BatchIsInRange : catDefault.round = .identity ∧
    (catDefault.format .normalQuality).kind = .pc
      { len := 36, n := 8, p := 3, qkind := .u8, speedOff := 4, firstOff := 6, ptsOff := 8, lastOff := 32, u := 64,
        bias := 0xA000, speedScale := 1 / 64, qScale := 1 } ∧
    (lastBatch (fed frameNormalQuality State.reset)).isSome = true := ⟨rfl, rfl, by decide +kernel⟩

/-- AnglesRunFromFirstToLast at `N = 1` and at `N = 8`: 10 to 17 degrees. -/
theorem test_wit_AnglesRunFromFirstToLast :
    let d : PcLayout :=
      { len := 28, n := 8, p := 2, qkind := .none, speedOff := 4, firstOff := 6, ptsOff := 8, lastOff := 24,
        u := 64, bias := 0xA000, speedScale := 1, qScale := 0 }
    0 < d.u ∧ 2 ≤ d.n ∧ pointAngle d 640 1088 7 = 17 ∧ pointAngle { d with n := 1 } 640 1088 0 = 10 := by decide +kernel

/-- Points at the bounds the point-cloud rules and BuiltPointFrameIsEmitted set: distance and quality at their greatest. -/
theorem test_wit_point_cloud_rules :
    (List.replicate 8 ((0xFFFF : Word), (0x00FF : Word))).length = 8 ∧
    (∀ p ∈ List.replicate 8 ((0xFFFF : Word), (0x00FF : Word)), p.2.toNat < 256) ∧ State.reset.cat = catDefault ∧
    (List.replicate 12 ((0xFFFF : Word), (0x00FF : Word))).length = 12 := ⟨rfl, by simp, rfl, rfl⟩

/-- The info rules and CommandFrameIsUpBoardInfo at the longest payload. -/
theorem test_wit_info_rules : (List.replicate 255 (0xFF : Byte)).length ≤ 255 ∧ State.reset.cat = catDefault ∧
    State.reset.inv = true ∧ State.reset.st = .sync0 := ⟨by decide +kernel, rfl, by decide +kernel, rfl⟩

/-- InboundFormatsComplete and InboundFormatsFrame. -/
theorem test_wit_InboundFormats : let f : Frame := ⟨0x5A, 0xA5, [0x10, 0x03], [0xDE, 0xAD, 0xBE], [0x5B]⟩
    (Instr.downBoardInfo f).inbound = some (.downBoardInfo, f) ∧ (Instr.downBoardInfo f).wf State.reset.cat = true ∧
    State.reset.cat.wf = true := by decide +kernel

theorem test_wit_CommandFrameIsBuilt : (List.replicate 255 (0x00 : Byte)).length ≤ 255 ∧
    255 < (List.replicate 256 (0x00 : Byte)).length := by decide +kernel

end Sys2Proof.Tests
end

section
/-! SUPPORT. The scope statements (00_scope): an ill-formed catalog is refused before any step (R12), and what bounds a
header by the buffer, with the fault where nothing does (R50, R257 (a); log 9). -/

namespace Sys2Proof

/-- `CAT_DEFAULT` meets W1 to W7 (R108). -/
theorem catDefault_wf : catDefault.wf = true := by decide +kernel

theorem resolve_model_eq_unknownModel_iff {cat : Catalog} {F : Family} {es : List ModelEntry} {m0 m1 : Byte}
    (hm : F.mode = .model es) : cat.resolve F m0 m1 = .unknownModel ↔ lookupModel m0 m1 es = none := by
  simp only [Catalog.resolve, hm]
  cases lookupModel m0 m1 es with
  | none => simp
  | some fid => cases hk : (cat.format fid).kind <;> simp [hk]

/-- Only a MODEL family with empty ENTRIES knows no header: the first entry's model code, or any payload length, is
known (R87, R88). -/
theorem exists_resolve_ne_unknownModel (cat : Catalog) {F : Family} (hne : F.mode ≠ .model []) :
    ∃ m0 m1, cat.resolve F m0 m1 ≠ .unknownModel := by
  cases hm : F.mode with
  | plen fid overhead => exact ⟨0, 0, by simp [Catalog.resolve, hm]⟩
  | model es =>
    cases es with
    | nil => exact absurd hm hne
    | cons e es => exact ⟨e.m0, e.m1, by simp [resolve_model_eq_unknownModel_iff hm, lookupModel]⟩

/-- With a well-formed catalog a family other than a MODEL family with empty ENTRIES has a header that resolves to a
format (W3). -/
theorem wf_exists_resolve {cat : Catalog} (h : cat.wf = true) {F : Family} (hF : F ∈ cat.families)
    (hne : F.mode ≠ .model []) : ∃ m0 m1 fid len, cat.resolve F m0 m1 = .format fid len := by
  obtain ⟨m0, m1, hknown⟩ := exists_resolve_ne_unknownModel cat hne
  refine ⟨m0, m1, ?_⟩
  cases hr : cat.resolve F m0 m1 with
  | unknownModel => exact absurd hr hknown
  | noLength => exact absurd hr (wf_resolve_ne_noLength h hF)
  | format fid len => exact ⟨fid, len, rfl⟩

/-- A header that resolves leaves room in the buffer for the rest of its frame (W4). -/
theorem wf_hdrLen_lt_bufSize {cat : Catalog} (h : cat.wf = true) {F : Family} (hF : F ∈ cat.families) {m0 m1 : Byte}
    {fid : FormatId} {len : Nat} (hr : cat.resolve F m0 m1 = .format fid len) : F.hdrLen < cat.bufSize := by
  obtain ⟨hhdr, hbuf, -, -⟩ := wf_resolve h hF hr
  omega

theorem wf_headersFit {cat : Catalog} (h : cat.wf = true) (hne : ∀ F ∈ cat.families, F.mode ≠ .model []) :
    cat.headersFit = true := by
  refine headersFit_iff.2 fun F hF => ?_
  obtain ⟨m0, m1, fid, len, hr⟩ := wf_exists_resolve h hF (hne F hF)
  exact (wf_hdrLen_lt_bufSize h hF hr).le

namespace Machine

theorem step_illFormed {s : State} (h : s.cat.wf = false) : step s = .refused .illFormedCatalog := by
  simp [step, h]

theorem feedByte_header {b : Byte} {s : State} (hs : s.st = .header) : feedByte b s = microHeader b s.startStep := by
  simp [feedByte, hs]

theorem append_eq_none {s : State} {b : Byte} : s.append b = none ↔ s.cat.bufSize ≤ s.cnt := by
  simp [State.append]

/-- HEADER with the buffer full: the append has no address for the byte (R50). -/
theorem microHeader_bufferOverflow {b : Byte} {s : State} {F : Family} (hF : s.cat.families[s.fam]? = some F)
    (hfull : s.cat.bufSize ≤ s.cnt) : microHeader b s = .fault .bufferOverflow := by
  simp [microHeader, hF, append_eq_none.2 hfull]

/-- Settles O40: `step` tests the catalog before it takes an operation. -/
theorem illFormedCatalogIsRefused : Obligations.IllFormedCatalogIsRefused :=
  ⟨fun _ => step_illFormed, catDefault_wf⟩

/-- Settles O60: W4 bounds the header of every frame length a family can resolve, every family with an entry or a
payload length resolves one, and the append of HEADER faults on a full buffer. -/
theorem headersFitOrFault : Obligations.HeadersFitOrFault := by
  refine ⟨?resolves, ?fits, ?faults⟩
  case resolves => exact fun _ _ _ _ _ _ h hF hr => wf_hdrLen_lt_bufSize h hF hr
  case fits => exact fun _ => wf_headersFit
  case faults =>
    intro s b F ops hwf hs hi hF hfull
    calc step s = feedByte b (s.withInput ops) := step_feed hwf hi
      _ = microHeader b (s.withInput ops).startStep := feedByte_header hs
      _ = .fault .bufferOverflow := microHeader_bufferOverflow hF hfull

end Machine

end Sys2Proof
end

section
/-! SUPPORT. The state statements: the frame buffer as a memory, the state after reset, the invariant I0 to I3 of R27 kept
by every step, and what of the state no step can observe (R21). -/

namespace Sys2Proof

/-- A well-formed frame at the head of a byte sequence is what decodes from it (R90). -/
theorem decode_frame_append {cat : Catalog} {fid : FormatId} {f : Frame} (hf : f.wf cat fid = true) (rest : List Byte) :
    decode cat (f.bytes ++ rest) = .ok (.ofFormat fid f, rest) := by
  obtain ⟨j, F, m0, m1, hj, hh, hw, hl, h0, h1, hr⟩ := frame_wf_iff.1 hf
  have append_getElem? : ∀ {i m}, f.bytes[i]? = some m → (f.bytes ++ rest)[i]? = some m := fun h => by
    rw [List.getElem?_append_left (List.getElem?_eq_some_iff.1 h).1, h]
  have hsplit : splitFrame F.hdrLen (cat.format fid).cks.width f.bytes = some f := by
    rw [← hh, ← hw]; exact splitFrame_of_bytes f
  calc decode cat (f.bytes ++ rest) = decodeIn cat F (f.bytes ++ rest) := by
        simp [decode, Frame.bytes, inFirst_of_familyOf hj, hj]
    _ = .ok (.ofFormat fid f, rest) := by
        simp [decodeIn, append_getElem? h0, append_getElem? h1, hr, hl, hsplit]

/-- A family whose header fits leaves the buffer room for a sync pair and one byte more (W2). -/
theorem two_lt_bufSize {cat : Catalog} (hwf : cat.wf = true) (hfit : cat.headersFit = true) {F : Family}
    (hF : F ∈ cat.families) : 2 < cat.bufSize := by
  have h1 := wf_header hwf hF
  have h2 := headersFit_iff.1 hfit F hF
  omega

theorem exists_family_of_inFirst {cat : Catalog} {b : Byte} (h : cat.inFirst b = true) : ∃ F, F ∈ cat.families := by
  obtain ⟨F, hF, -⟩ := List.any_eq_true.1 h
  exact ⟨F, hF⟩

namespace Machine

/-! ## The buffer as a memory -/

/-- Settles O41: the append is one store at `cnt`, and a store is read back at its own offset alone. -/
theorem appendIsReadBack : Obligations.AppendIsReadBack := by
  intro s t b h
  obtain ⟨-, rfl⟩ := append_eq_some.1 h
  refine ⟨rfl, ?_, ?_, ?_, ?_, insertCell_wf s.cnt b⟩
  · rw [push_read, if_pos rfl]
  · exact fun k hk => by rw [push_read, if_neg hk.ne]
  · exact fun k hk => read_of_le hk
  · exact fun k hk => by rw [State.push_buf, lookupCell_insertCell, if_neg hk.symm]

/-- A byte stored at `cnt` and counted extends the candidate, whatever the other fields (R55). -/
theorem candidate_extended {s t : State} {b : Byte} {bs : List Byte} (hc : s.candidate = some bs)
    (hcnt : t.cnt = s.cnt + 1) (hbuf : t.buf = insertCell s.cnt b s.buf) : t.candidate = some (bs ++ [b]) := by
  rw [← candidate_push b hc]
  exact candidate_congr hcnt hbuf

/-! ## Good states -/

/-- In a good state the candidate has a value (R27). -/
theorem exists_candidate_of_inv {s : State} (hinv : s.inv = true) : ∃ bs, s.candidate = some bs := by
  obtain ⟨-, -, -, -, hfr⟩ := inv_iff.1 hinv
  cases hs : s.st with
  | sync0 => exact ⟨_, candidate_of_zero ((framingOk_sync0 hs).1 hfr)⟩
  | sync1 => obtain ⟨a, ha, -⟩ := (framingOk_sync1 hs).1 hfr; exact ⟨_, ha⟩
  | header => obtain ⟨F, rest, hc, -⟩ := (framingOk_header hs).1 hfr; exact ⟨_, hc⟩
  | accum => obtain ⟨F, rest, m0, m1, hc, -⟩ := (framingOk_accum hs).1 hfr; exact ⟨_, hc⟩
  | complete => simp [framingOk_complete hs] at hfr

/-- In a good SYNC1 state the byte read at offset 0 is the whole candidate (R27, I1). -/
theorem candidate_sync1 {s : State} {a : Byte} (hfr : s.framingOk = true) (hs : s.st = .sync1)
    (ha : s.read 0 = some a) : s.candidate = some [a] ∧ s.cnt = 1 := by
  obtain ⟨a', hc, -⟩ := (framingOk_sync1 hs).1 hfr
  have hcnt : s.cnt = 1 := (candidate_length hc).symm
  have hread := candidate_getElem hc (i := 0) (by omega)
  rw [ha] at hread
  obtain rfl : a' = a := by simpa using hread
  exact ⟨hc, hcnt⟩

/-- In SYNC0 with nothing buffered and nothing ever written the invariant asks for the catalog alone (R27, I0). -/
theorem inv_of_empty {s : State} (hwf : s.cat.wf = true) (hfit : s.cat.headersFit = true) (hbuf : s.buf = [])
    (hst : s.st = .sync0) (hcnt : s.cnt = 0) : s.inv = true :=
  inv_iff.2 ⟨hwf, hfit, by rw [hbuf]; rfl, by simp [hbuf, below], (framingOk_sync0 hst).2 hcnt⟩

/-- Settles O24: the reset state is SYNC0 with an empty buffer, and there the invariant reads nothing of `fam`, `fmt`,
`len`. -/
theorem resetStateIsGood : Obligations.ResetStateIsGood :=
  have hfit : catDefault.headersFit = true := by decide
  ⟨rfl, rfl, fun k => read_of_le k.zero_le, rfl, fun _ _ _ => inv_of_empty catDefault_wf hfit rfl rfl rfl,
    fun _ hwf hfit => inv_of_empty hwf hfit rfl rfl rfl⟩

/-- Settles O5: COMPLETE on the last byte of a good candidate is on a well-formed frame of the format in `fmt`, and a
well-formed frame decodes from its bytes. -/
theorem finalByteAlwaysDecodes : Obligations.FinalByteAlwaysDecodes := by
  intro s b bs hinv hst hlast hc
  obtain ⟨-, -, -, -, hfr⟩ := inv_iff.1 hinv
  obtain ⟨-, -, -, -, -, -, -, hlt, hle, -⟩ := (framingOk_accum hst).1 hfr
  obtain ⟨f, hwf, hbytes, -⟩ := microComplete_of_inv hinv hst hlast hc (append_of_lt (b := b) (hlt.trans_le hle))
  refine ⟨f, ?_, hbytes⟩
  simpa [hbytes] using decode_frame_append hwf []

/-! ## What a step can do -/

/-- Everything an operation can do (R150, R199). -/
theorem runOp_cases {op : Op} {s t : State} (h : runOp op s = .next t) :
    (op = .reset ∧ t = s.resetOp) ∨ (∃ b, op = .feedByte b ∧ feedByte b s = .next t) ∨
    (∃ code payload, op = .sendCommand code payload ∧
      t = { s with commands := s.commands ++ [commandFrame s.cat code payload] }) := by
  cases op with
  | reset => cases h; exact .inl ⟨rfl, rfl⟩
  | feedByte b => exact .inr (.inl ⟨b, rfl, h⟩)
  | sendCommand code payload =>
    simp only [runOp, exec, execCmd] at h
    split at h
    · cases h; exact .inr (.inr ⟨code, payload, rfl, rfl⟩)
    · cases h

/-- Everything a step can do: the state is held, or the oldest operation is taken and runs. -/
theorem step_outcome {s t : State} (h : step s = .next t) :
    t = s ∨ (∃ ops, t = (s.withInput ops).resetOp) ∨ (∃ b ops, FeedOutcome b (s.withInput ops) t) ∨
    ∃ ops cs, t = { s.withInput ops with commands := cs } := by
  obtain ⟨-, ⟨-, rfl⟩ | ⟨op, ops, -, hrun⟩⟩ := step_cases h
  · exact .inl rfl
  · obtain ⟨-, rfl⟩ | ⟨b, -, hfeed⟩ | ⟨code, payload, -, rfl⟩ := runOp_cases hrun
    · exact .inr (.inl ⟨ops, rfl⟩)
    · exact .inr (.inr (.inl ⟨b, ops, feedByte_outcome hfeed⟩))
    · exact .inr (.inr (.inr ⟨ops, _, rfl⟩))

theorem FeedOutcome.cat {b : Byte} {s t : State} (h : FeedOutcome b s t) : t.cat = s.cat := by
  cases h <;> subst_vars <;> rfl

/-- Settles O32: no case of a step writes the catalog. -/
theorem catalogNeverChanges : Obligations.CatalogNeverChanges := by
  intro s t h
  obtain rfl | ⟨ops, rfl⟩ | ⟨b, ops, hfeed⟩ | ⟨ops, cs, rfl⟩ := step_outcome h
  · rfl
  · rfl
  · exact hfeed.cat
  · rfl

theorem handlerEvent_ne_frameOut {cat : Catalog} {fid : FormatId} {f : Frame} {e : Event}
    (h : handlerEvent cat fid f = some e) (g : FormatId) (bs : List Byte) : e ≠ .frameOut g bs := by
  rintro rfl
  unfold handlerEvent at h
  split at h <;> simp at h

/-- FEED_BYTE emits nothing, or under the label EMIT the frame and its handler's event (R163, R261). -/
theorem FeedOutcome.out_cases {b : Byte} {s t : State} (h : FeedOutcome b s t) :
    t.out = s.out ∨ ∃ f e, handlerEvent s.cat s.fmt f = some e ∧ t.out = s.out ++ [.frameOut s.fmt f.bytes, e] := by
  cases h with
  | emit bytes f e _ _ _ _ _ _ he ht => subst ht; exact .inr ⟨f, e, he, rfl⟩
  | _ => subst_vars; exact .inl rfl

/-- Settles O31: of all a step can do only EMIT has an output, FRAME_OUT and the handler's event. -/
theorem traceGrowsByWholeFrames : Obligations.TraceGrowsByWholeFrames := by
  intro s t h
  obtain rfl | ⟨ops, rfl⟩ | ⟨b, ops, hfeed⟩ | ⟨ops, cs, rfl⟩ := step_outcome h
  · exact .inl rfl
  · exact .inl rfl
  · obtain hout | ⟨f, e, he, hout⟩ := hfeed.out_cases
    · exact .inl hout
    · exact .inr ⟨_, _, e, hout, handlerEvent_ne_frameOut he⟩
  · exact .inl rfl

/-! ## Every step keeps the invariant -/

/-- FEED_BYTE writes the buffer at most once, at an address it has (R50). -/
theorem FeedOutcome.buf_cases {b : Byte} {s t : State} (h : FeedOutcome b s t) :
    t.buf = s.buf ∨ ∃ a < s.cat.bufSize, t.buf = insertCell a b s.buf := by
  cases h with
  | sync0Hit _ _ hn ht | sync1Hit _ _ _ _ _ _ hn ht | sync1AgainHit _ _ _ _ _ hn ht => subst ht; exact .inr ⟨_, hn, rfl⟩
  | sync0Skip | sync1AgainSkip => subst_vars; exact .inl rfl
  | _ => subst_vars; exact .inr ⟨_, ‹s.cnt < s.cat.bufSize›, rfl⟩

/-- The canonical form and the bound of the buffer are kept; what remains of the invariant is R27. -/
theorem FeedOutcome.inv_of_framingOk {b : Byte} {s t : State} (h : FeedOutcome b s t) (hinv : s.inv = true)
    (hfr : t.framingOk = true) : t.inv = true := by
  obtain ⟨hwf, hfit, hmem, hbelow, -⟩ := inv_iff.1 hinv
  rw [inv_iff, h.cat]
  obtain hbuf | ⟨a, ha, hbuf⟩ := h.buf_cases
  · exact ⟨hwf, hfit, hbuf ▸ hmem, hbuf ▸ hbelow, hfr⟩
  · exact ⟨hwf, hfit, hbuf ▸ insertCell_wf a b hmem, hbuf ▸ below_insertCell ha hbelow, hfr⟩

/-- I2 after a sync pair that is a family's (R154). -/
theorem framingOk_sync1Hit {s t : State} {a b : Byte} {i : Nat} {F : Family} (hwf : s.cat.wf = true)
    (hF : s.cat.familyOf a b = some (i, F)) (hst : t.st = .header) (hcat : t.cat = s.cat) (hfam : t.fam = i)
    (hc : t.candidate = some [a, b]) : t.framingOk = true := by
  obtain ⟨hi, rfl, rfl⟩ := familyOf_spec hF
  have hhdr := wf_header hwf (familyOf_mem hF)
  have hcnt : 2 = t.cnt := candidate_length hc
  exact (framingOk_header hst).2 ⟨F, [], hc, by rw [hcat, hfam, hi], by omega⟩

/-- I3 after a header that resolves to a length in range (R157 to R159). -/
theorem framingOk_headerDone {s t : State} {b m0 m1 : Byte} {F : Family} (hs : s.st = .header)
    (hfr : s.framingOk = true) (hF : s.cat.families[s.fam]? = some F) (hl : F.hdrLen ≤ s.cnt + 1)
    (h0 : (s.push b).read (F.hdrLen - 2) = some m0) (h1 : (s.push b).read (F.hdrLen - 1) = some m1)
    (hr : s.cat.resolve F m0 m1 = .format t.fmt t.len) (hk : s.cat.lengthOk F t.len = true) (hst : t.st = .accum)
    (hcat : t.cat = s.cat) (hcnt : t.cnt = s.cnt + 1) (hbuf : t.buf = insertCell s.cnt b s.buf) (hfam : t.fam = s.fam)
    (hwf : s.cat.wf = true) : t.framingOk = true := by
  obtain ⟨F', rest, hc, hF', hlt⟩ := (framingOk_header hs).1 hfr
  obtain rfl : F' = F := by simpa [hF] using hF'.symm
  simp only [Catalog.lengthOk, Bool.and_eq_true, decide_eq_true_eq] at hk
  have hhdr := wf_header hwf (List.mem_of_getElem? hF)
  have getElem?_of_read : ∀ {i m}, i < s.cnt + 1 → (s.push b).read i = some m →
      (F'.sync0 :: F'.sync1 :: (rest ++ [b]))[i]? = some m :=
    fun hi hm => (candidate_getElem (candidate_push b hc) hi).trans hm
  exact (framingOk_accum hst).2 ⟨F', rest ++ [b], m0, m1, candidate_extended hc hcnt hbuf, by rw [hcat, hfam, hF],
    by omega, by omega, hcat ▸ hk.2, getElem?_of_read (by omega) h0, getElem?_of_read (by omega) h1, hcat ▸ hr⟩

/-- I2 after one header byte more (R156). -/
theorem framingOk_headerMore {s t : State} {b : Byte} {F : Family} (hs : s.st = .header) (hfr : s.framingOk = true)
    (hF : s.cat.families[s.fam]? = some F) (hl : s.cnt + 1 < F.hdrLen) (hst : t.st = .header) (hcat : t.cat = s.cat)
    (hcnt : t.cnt = s.cnt + 1) (hbuf : t.buf = insertCell s.cnt b s.buf) (hfam : t.fam = s.fam) :
    t.framingOk = true := by
  obtain ⟨F', rest, hc, hF', -⟩ := (framingOk_header hs).1 hfr
  obtain rfl : F' = F := by simpa [hF] using hF'.symm
  exact (framingOk_header hst).2
    ⟨F', rest ++ [b], candidate_extended hc hcnt hbuf, by rw [hcat, hfam, hF], by omega⟩

/-- I3 after one byte more of the frame (R160). -/
theorem framingOk_accumMore {s t : State} {b : Byte} (hs : s.st = .accum) (hfr : s.framingOk = true)
    (hl : s.cnt + 1 < s.len) (hst : t.st = .accum) (hcat : t.cat = s.cat) (hcnt : t.cnt = s.cnt + 1)
    (hbuf : t.buf = insertCell s.cnt b s.buf) (hfam : t.fam = s.fam) (hfmt : t.fmt = s.fmt) (hlen : t.len = s.len) :
    t.framingOk = true := by
  obtain ⟨F, rest, m0, m1, hc, hF, hh, -, hle, h0, h1, hr⟩ := (framingOk_accum hs).1 hfr
  have append_getElem? : ∀ {i m}, (F.sync0 :: F.sync1 :: rest)[i]? = some m →
      (F.sync0 :: F.sync1 :: (rest ++ [b]))[i]? = some m := fun {i m} h => by
    rw [← List.cons_append, ← List.cons_append, List.getElem?_append_left (List.getElem?_eq_some_iff.1 h).1, h]
  exact (framingOk_accum hst).2 ⟨F, rest ++ [b], m0, m1, candidate_extended hc hcnt hbuf, by rw [hcat, hfam, hF],
    by omega, by omega, by rw [hlen, hcat]; exact hle, append_getElem? h0, append_getElem? h1,
    by rw [hcat, hfmt, hlen, hr]⟩

/-- FEED_BYTE keeps R27, label by label. -/
theorem FeedOutcome.framingOk {b : Byte} {s t : State} (h : FeedOutcome b s t) (hwf : s.cat.wf = true)
    (hfr : s.framingOk = true) : t.framingOk = true := by
  cases h with
  | sync0Hit _ hb _ ht => subst ht; exact (framingOk_sync1 rfl).2 ⟨b, candidate_one s.buf rfl rfl, hb⟩
  | sync0Skip hs _ ht => subst ht; exact (framingOk_sync0 (by exact hs)).2 ((framingOk_sync0 hs).1 hfr)
  | sync1Hit a i F hs ha hF _ ht =>
    subst ht
    obtain ⟨hc, hcnt⟩ := candidate_sync1 hfr hs ha
    exact framingOk_sync1Hit hwf hF rfl rfl rfl (candidate_extended hc (by simp [hcnt]) (by simp [hcnt]))
  | sync1AgainHit a hs _ _ hb _ ht =>
    subst ht
    exact (framingOk_sync1 (by exact hs)).2 ⟨b, candidate_one s.buf rfl rfl, hb⟩
  | headerMore F hs hF _ hl ht => subst ht; exact framingOk_headerMore hs hfr hF hl hs rfl rfl rfl rfl
  | headerDone F m0 m1 fid len hs hF _ hl h0 h1 hr hk ht =>
    subst ht
    exact framingOk_headerDone hs hfr hF hl h0 h1 hr hk rfl rfl rfl rfl rfl hwf
  | accumMore hs _ hl ht => subst ht; exact framingOk_accumMore hs hfr hl hs rfl rfl rfl rfl rfl rfl
  | _ => subst_vars; exact (framingOk_sync0 rfl).2 rfl

theorem withInput_inv (s : State) (ops : List Op) : (s.withInput ops).inv = s.inv := inv_congr rfl rfl rfl rfl rfl rfl rfl

theorem FeedOutcome.inv {b : Byte} {s t : State} (h : FeedOutcome b s t) (hinv : s.inv = true) : t.inv = true := by
  obtain ⟨hwf, -, -, -, hfr⟩ := inv_iff.1 hinv
  exact h.inv_of_framingOk hinv (h.framingOk hwf hfr)

theorem resetOp_inv {s : State} (hinv : s.inv = true) : s.resetOp.inv = true := by
  obtain ⟨hwf, hfit, hmem, hbelow, -⟩ := inv_iff.1 hinv
  exact inv_iff.2 ⟨hwf, hfit, hmem, hbelow, (framingOk_sync0 rfl).2 rfl⟩

/-- Settles O25: FEED_BYTE keeps R27 label by label and writes the buffer within its bounds, RESET empties the candidate,
and a command and the idle step change nothing the invariant reads. -/
theorem stepKeepsInvariant : Obligations.StepKeepsInvariant := by
  intro s t hinv h
  obtain rfl | ⟨ops, rfl⟩ | ⟨b, ops, hfeed⟩ | ⟨ops, cs, rfl⟩ := step_outcome h
  · exact hinv
  · exact resetOp_inv ((withInput_inv s ops).trans hinv)
  · exact hfeed.inv ((withInput_inv s ops).trans hinv)
  · rw [← hinv]
    exact inv_congr rfl rfl rfl rfl rfl rfl rfl

/-! ## The candidate is the last bytes fed -/

/-- FEED_BYTE extends the candidate, starts it anew with the byte, or empties it (R165). -/
theorem FeedOutcome.candidate_cases {b : Byte} {s t : State} {bs : List Byte} (h : FeedOutcome b s t)
    (hfr : s.framingOk = true) (hc : s.candidate = some bs) :
    t.candidate = some (bs ++ [b]) ∨ t.candidate = some [b] ∨ t.candidate = some [] := by
  cases h with
  | sync0Hit _ _ _ ht | sync1AgainHit _ _ _ _ _ _ ht =>
    subst ht
    exact .inr (.inl (candidate_one s.buf rfl rfl))
  | sync0Skip hs _ ht => subst ht; exact .inr (.inr (candidate_of_zero ((framingOk_sync0 hs).1 hfr)))
  | sync1Hit a i F hs ha _ _ ht =>
    subst ht
    obtain ⟨-, hcnt⟩ := candidate_sync1 hfr hs ha
    exact .inl (candidate_extended hc (by simp [hcnt]) (by simp [hcnt]))
  | headerMore | headerDone | accumMore => subst_vars; exact .inl (candidate_extended hc rfl rfl)
  | _ => subst_vars; exact .inr (.inr (candidate_of_zero rfl))

/-- Settles O27: the step is FEED_BYTE on the rest of the input, in a state with the same candidate. -/
theorem candidateIsLastBytesFed : Obligations.CandidateIsLastBytesFed := by
  intro s t b bs ops hinv hi hc h
  obtain ⟨hwf, -, -, -, hfr⟩ := inv_iff.1 ((withInput_inv s ops).trans hinv)
  rw [step_feed (s := s) hwf hi] at h
  exact (feedByte_outcome h).candidate_cases hfr ((candidate_withInput s ops).trans hc)

end Machine

end Sys2Proof
end

section
/-! SUPPORT. No step observes what is invalid (R21): FEED_BYTE does what its outcome says, a good state always has an
outcome, and a state that agrees with it on everything valid has the same one. -/

namespace Sys2Proof.Machine

/-! ## An outcome is a step -/

theorem completeFrame_of_valid {fid : FormatId} {f : Frame} {s : State} {e : Event}
    (hv : validate s.cat (s.cat.format fid).cks f.bytes = .next true) (he : handlerEvent s.cat fid f = some e) :
    completeFrame fid f s = .next (s.emit [.frameOut fid f.bytes, e]) := by
  simp [completeFrame, hv, he]

theorem completeFrame_of_invalid {fid : FormatId} {f : Frame} {s : State}
    (hv : validate s.cat (s.cat.format fid).cks f.bytes = .next false) :
    completeFrame fid f s = .next (s.discard .dropCksum) := by
  simp [completeFrame, hv]

theorem microSync0_hit {b : Byte} {s : State} (hb : s.cat.inFirst b = true) (hn : 0 < s.cat.bufSize) :
    microSync0 b s = .next
      { s with buf := insertCell 0 b s.buf, cnt := 1, st := .sync1, labels := s.labels ++ [.sync0Hit] } := by
  simp [microSync0, hb, State.storeAt, hn, State.label]

theorem microSync0_skip {b : Byte} {s : State} (hb : s.cat.inFirst b = false) :
    microSync0 b s = .next (s.label .sync0Skip) := by
  simp [microSync0, hb]

theorem feedByte_sync0 {b : Byte} {s : State} (hs : s.st = .sync0) : feedByte b s = microSync0 b s.startStep := by
  simp [feedByte, hs]

theorem feedByte_sync1 {b : Byte} {s : State} (hs : s.st = .sync1) : feedByte b s = microSync1 b s.startStep := by
  simp [feedByte, hs]

theorem feedByte_accum {b : Byte} {s : State} (hs : s.st = .accum) : feedByte b s = microAccum b s.startStep := by
  simp [feedByte, hs]

/-- FEED_BYTE in SYNC1 on a byte that completes a pair (R154). -/
theorem feedByte_sync1_pair {a b : Byte} {i : Nat} {F : Family} {s : State} (hs : s.st = .sync1)
    (ha : s.read 0 = some a) (hF : s.cat.familyOf a b = some (i, F)) (hn : 1 < s.cat.bufSize) :
    feedByte b s = .next
      { s with buf := insertCell 1 b s.buf, cnt := 2, fam := i, st := .header, labels := [.sync1Hit] } := by
  have ha' : s.startStep.read 0 = some a := ha
  have hstore : s.startStep.storeAt 1 b = some { s.startStep with buf := insertCell 1 b s.buf } :=
    storeAt_eq_some.2 ⟨hn, rfl⟩
  have hmicro : microSync1 b s.startStep = .next
      ({ s.startStep with buf := insertCell 1 b s.buf, cnt := 2, fam := i, st := .header }.label .sync1Hit) := by
    simp [microSync1, ha', hF, hstore]
  exact (feedByte_sync1 hs).trans hmicro

/-- FEED_BYTE in SYNC1 on a byte that completes no pair is SYNC0 on the state without the first byte (R155). -/
theorem feedByte_sync1_again {a b : Byte} {s : State} (hs : s.st = .sync1) (ha : s.read 0 = some a)
    (hF : s.cat.familyOf a b = none) : feedByte b s = microSync0 b (s.startStep.discard .dropSync1) := by
  have ha' : s.startStep.read 0 = some a := ha
  simp [feedByte_sync1 hs, microSync1, ha', hF]

section
variable {F : Family} {m0 m1 : Byte} {fid : FormatId} {len : Nat} {s : State}

theorem resolveHeader_unknownModel (hr : s.cat.resolve F m0 m1 = .unknownModel) :
    resolveHeader F m0 m1 s = .next (s.discard .dropModel) := by
  simp [resolveHeader, hr]

theorem resolveHeader_lengthOk (hr : s.cat.resolve F m0 m1 = .format fid len) (hk : s.cat.lengthOk F len = true) :
    resolveHeader F m0 m1 s = .next ({ s with fmt := fid, len := len, st := .accum }.label .headerDone) := by
  simp [resolveHeader, hr, hk]

theorem resolveHeader_badLength (hr : s.cat.resolve F m0 m1 = .format fid len) (hk : s.cat.lengthOk F len = false) :
    resolveHeader F m0 m1 s = .next ({ s with fmt := fid, len := len }.discard .dropLen) := by
  simp [resolveHeader, hr, hk]

end

/-- FEED_BYTE on the last byte of a header is the length resolution on that header (R157, R158). -/
theorem feedByte_header_last {b m0 m1 : Byte} {F : Family} {s : State} (hs : s.st = .header)
    (hF : s.cat.families[s.fam]? = some F) (hn : s.cnt < s.cat.bufSize) (hl : F.hdrLen ≤ s.cnt + 1)
    (h0 : (s.push b).read (F.hdrLen - 2) = some m0) (h1 : (s.push b).read (F.hdrLen - 1) = some m1) :
    feedByte b s = resolveHeader F m0 m1 (s.startStep.push b) := by
  have h0' : (s.startStep.push b).read (F.hdrLen - 2) = some m0 := h0
  have h1' : (s.startStep.push b).read (F.hdrLen - 1) = some m1 := h1
  simp [feedByte_header hs, microHeader, hF, append_of_lt (s := s.startStep) hn, hl.not_gt, h0', h1']

/-- FEED_BYTE on the last byte of a frame is COMPLETE on that frame (R161, R162). -/
theorem feedByte_accum_last {b : Byte} {bytes : List Byte} {f : Frame} {s : State} (hs : s.st = .accum)
    (hn : s.cnt < s.cat.bufSize) (hl : s.len ≤ s.cnt + 1) (hb : (s.push b).readRange 0 s.len = some bytes)
    (hf : s.cat.split s.fmt bytes = some f) : feedByte b s = completeFrame s.fmt f (s.startStep.push b) := by
  have hb' : (s.startStep.push b).readRange 0 s.len = some bytes := by
    rw [← hb]; exact readRange_congr fun i _ _ => rfl
  simp [feedByte_accum hs, microAccum, append_of_lt (s := s.startStep) hn, hl.not_gt, microComplete, hb', hf, exec_ofFormat]

/-- The converse of `feedByte_outcome`: what an outcome tested decides the step. -/
theorem FeedOutcome.feedByte_eq {b : Byte} {s t : State} (h : FeedOutcome b s t) : feedByte b s = .next t := by
  cases h with
  | sync0Hit hs hb hn ht =>
    subst ht
    exact (feedByte_sync0 hs).trans (microSync0_hit (s := s.startStep) hb hn)
  | sync0Skip hs hb ht =>
    subst ht
    exact (feedByte_sync0 hs).trans (microSync0_skip (s := s.startStep) hb)
  | sync1Hit a i F hs ha hF hn ht =>
    subst ht
    exact feedByte_sync1_pair hs ha hF hn
  | sync1AgainHit a hs ha hF hb hn ht =>
    subst ht
    rw [feedByte_sync1_again hs ha hF, microSync0_hit (s := s.startStep.discard .dropSync1) hb hn, ← hs]
    rfl
  | sync1AgainSkip a hs ha hF hb ht =>
    subst ht
    exact (feedByte_sync1_again hs ha hF).trans (microSync0_skip (s := s.startStep.discard .dropSync1) hb)
  | headerMore F hs hF hn hl ht =>
    subst ht
    have hstep : feedByte b s = .next ((s.startStep.push b).label .headerMore) := by
      simp [feedByte_header hs, microHeader, hF, append_of_lt (s := s.startStep) hn, hl]
    exact hstep
  | dropModel F m0 m1 hs hF hn hl h0 h1 hr ht =>
    subst ht
    exact (feedByte_header_last hs hF hn hl h0 h1).trans (resolveHeader_unknownModel hr)
  | headerDone F m0 m1 fid len hs hF hn hl h0 h1 hr hk ht =>
    subst ht
    exact (feedByte_header_last hs hF hn hl h0 h1).trans (resolveHeader_lengthOk hr hk)
  | dropLen F m0 m1 fid len hs hF hn hl h0 h1 hr hk ht =>
    subst ht
    exact (feedByte_header_last hs hF hn hl h0 h1).trans (resolveHeader_badLength hr hk)
  | accumMore hs hn hl ht =>
    subst ht
    have hstep : feedByte b s = .next ((s.startStep.push b).label .accumMore) := by
      simp [feedByte_accum hs, microAccum, append_of_lt (s := s.startStep) hn, hl]
    exact hstep
  | emit bytes f e hs hn hl hb hf hv he ht =>
    subst ht
    exact (feedByte_accum_last hs hn hl hb hf).trans (completeFrame_of_valid (s := s.startStep.push b) hv he)
  | dropCksum bytes f hs hn hl hb hf hv ht =>
    subst ht
    exact (feedByte_accum_last hs hn hl hb hf).trans (completeFrame_of_invalid (s := s.startStep.push b) hv)

/-! ## A good state has an outcome -/

theorem completeFrame_total {fid : FormatId} {f : Frame} {s : State} (hwf : s.cat.wf = true)
    (hf : f.wf s.cat fid = true) : ∃ t, completeFrame fid f s = .next t := by
  obtain ⟨ok, hv⟩ := validate_of_wf hwf hf
  cases ok with
  | true => obtain ⟨e, he⟩ := handlerEvent_of_wf hwf hf; exact ⟨_, completeFrame_of_valid hv he⟩
  | false => exact ⟨_, completeFrame_of_invalid hv⟩

/-- SYNC0 on any byte: a first sync byte has room in the buffer (R153). -/
theorem microSync0_total {b : Byte} {s : State} (hwf : s.cat.wf = true) (hfit : s.cat.headersFit = true) :
    ∃ t, microSync0 b s = .next t := by
  cases hb : s.cat.inFirst b with
  | true =>
    obtain ⟨F, hF⟩ := exists_family_of_inFirst hb
    have hn := two_lt_bufSize hwf hfit hF
    exact ⟨_, microSync0_hit hb (by omega)⟩
  | false => exact ⟨_, microSync0_skip hb⟩

theorem feedByte_total_sync1 {b : Byte} {s : State} (hinv : s.inv = true) (hs : s.st = .sync1) :
    ∃ t, feedByte b s = .next t := by
  obtain ⟨hwf, hfit, -, -, hfr⟩ := inv_iff.1 hinv
  obtain ⟨a, hc, ha⟩ := (framingOk_sync1 hs).1 hfr
  have hcnt : 1 = s.cnt := candidate_length hc
  have hread : s.read 0 = some a := (candidate_getElem hc (by omega)).symm
  obtain ⟨G, hG⟩ := exists_family_of_inFirst ha
  have hn := two_lt_bufSize hwf hfit hG
  cases hF : s.cat.familyOf a b with
  | some p => exact ⟨_, (FeedOutcome.sync1Hit a p.1 p.2 hs hread hF (by omega) rfl).feedByte_eq⟩
  | none => rw [feedByte_sync1_again hs hread hF]; exact microSync0_total hwf hfit

/-- A resolved header is discarded or accepted: with a well-formed catalog it never lacks a length (R157 to R159). -/
theorem resolveHeader_total {F : Family} {m0 m1 : Byte} {s : State} (hwf : s.cat.wf = true)
    (hF : F ∈ s.cat.families) : ∃ t, resolveHeader F m0 m1 s = .next t := by
  cases hr : s.cat.resolve F m0 m1 with
  | unknownModel => exact ⟨_, resolveHeader_unknownModel hr⟩
  | noLength => exact absurd hr (wf_resolve_ne_noLength hwf hF)
  | format fid len =>
    cases hk : s.cat.lengthOk F len with
    | true => exact ⟨_, resolveHeader_lengthOk hr hk⟩
    | false => exact ⟨_, resolveHeader_badLength hr hk⟩

theorem feedByte_total_header {b : Byte} {s : State} (hinv : s.inv = true) (hs : s.st = .header) :
    ∃ t, feedByte b s = .next t := by
  obtain ⟨hwf, hfit, -, -, hfr⟩ := inv_iff.1 hinv
  obtain ⟨F, rest, hc, hF, hlt⟩ := (framingOk_header hs).1 hfr
  have hmem := List.mem_of_getElem? hF
  have hn : s.cnt < s.cat.bufSize := hlt.trans_le (headersFit_iff.1 hfit F hmem)
  by_cases hl : s.cnt + 1 < F.hdrLen
  · exact ⟨_, (FeedOutcome.headerMore F hs hF hn hl rfl).feedByte_eq⟩
  · have hpos := wf_header hwf hmem
    have exists_read : ∀ i < s.cnt + 1, ∃ m, (s.push b).read i = some m := fun i hi => by
      have hcu := candidate_push b hc
      exact ⟨_, (candidate_getElem hcu hi).symm.trans (List.getElem?_eq_getElem (by rwa [candidate_length hcu]))⟩
    obtain ⟨m0, h0⟩ := exists_read (F.hdrLen - 2) (by omega)
    obtain ⟨m1, h1⟩ := exists_read (F.hdrLen - 1) (by omega)
    rw [feedByte_header_last hs hF hn (by omega) h0 h1]
    exact resolveHeader_total hwf hmem

theorem startStep_inv (s : State) : s.startStep.inv = s.inv := inv_congr rfl rfl rfl rfl rfl rfl rfl

theorem feedByte_total_accum {b : Byte} {s : State} (hinv : s.inv = true) (hs : s.st = .accum) :
    ∃ t, feedByte b s = .next t := by
  obtain ⟨hwf, -, -, -, hfr⟩ := inv_iff.1 hinv
  obtain ⟨F, rest, m0, m1, hc, -, -, hlt, hle, -⟩ := (framingOk_accum hs).1 hfr
  have hn := hlt.trans_le hle
  by_cases hl : s.cnt + 1 < s.len
  · exact ⟨_, (FeedOutcome.accumMore hs hn hl rfl).feedByte_eq⟩
  · obtain ⟨f, hf, -, hcomplete⟩ := microComplete_of_inv (s := s.startStep) ((startStep_inv s).trans hinv) hs
      (by simp; omega) ((candidate_startStep s).trans hc) (append_of_lt (b := b) hn)
    have hlast : feedByte b s = completeFrame s.fmt f (s.startStep.push b) := by
      simp [feedByte_accum hs, microAccum, append_of_lt (s := s.startStep) hn, hl, hcomplete]
    rw [hlast]
    exact completeFrame_total hwf hf

/-- From every good state FEED_BYTE has a next state, whatever the byte (R150, R257). -/
theorem feedByte_total {s : State} (hinv : s.inv = true) (b : Byte) : ∃ t, feedByte b s = .next t := by
  obtain ⟨hwf, hfit, -, -, hfr⟩ := inv_iff.1 hinv
  cases hs : s.st with
  | sync0 => rw [feedByte_sync0 hs]; exact microSync0_total hwf hfit
  | sync1 => exact feedByte_total_sync1 hinv hs
  | header => exact feedByte_total_header hinv hs
  | accum => exact feedByte_total_accum hinv hs
  | complete => simp [framingOk_complete hs] at hfr

/-! ## What is invalid is not observed -/

/-- States that agree on everything valid differ in the buffer's cells, in `fam`, `fmt`, `len` where they are invalid, and
in the labels (R21). -/
theorem exists_eq_of_sameValid {s t : State} (h : sameValid s t) :
    ∃ m i fid n ls, t = { s with buf := m, fam := i, fmt := fid, len := n, labels := ls } ∧
      s.candidate = t.candidate ∧ (s.st = .header ∨ s.st = .accum → s.fam = i) ∧
      (s.st = .accum → s.fmt = fid ∧ s.len = n) := by
  obtain ⟨hcat, hst, hcnt, hc, hout, hinput, hcommands, hfam, hacc⟩ := h
  exact ⟨t.buf, t.fam, t.fmt, t.len, t.labels, by rw [hcat, hst, hcnt, hout, hinput, hcommands], hc, hfam, hacc⟩

/-- What is read is the candidate's (R24). -/
theorem read_eq_of_candidate {s t : State} {bs : List Byte} (hs : s.candidate = some bs) (ht : t.candidate = some bs)
    (i : Nat) : t.read i = s.read i := by
  have hcnt : t.cnt = s.cnt := (candidate_length ht).symm.trans (candidate_length hs)
  by_cases hi : i < s.cnt
  · rw [← candidate_getElem hs hi, candidate_getElem ht (hcnt ▸ hi)]
  · rw [read_of_le (not_lt.1 hi), read_of_le (hcnt ▸ not_lt.1 hi)]

/-- In SYNC0 nothing but the catalog and the interfaces is valid (R21). -/
theorem sameValid_sync0 {s t : State} (hs : s.st = .sync0) (ht : t.st = .sync0) (hs0 : s.cnt = 0) (ht0 : t.cnt = 0)
    (hcat : s.cat = t.cat) (hout : s.out = t.out) (hinput : s.input = t.input) (hcommands : s.commands = t.commands) :
    sameValid s t :=
  ⟨hcat, by rw [hs, ht], by rw [hs0, ht0], by rw [candidate_of_zero hs0, candidate_of_zero ht0], hout, hinput, hcommands,
    by simp [hs], by simp [hs]⟩

/-- An outcome of FEED_BYTE is one of every state that agrees on what is valid, and leads to agreeing states: it tests
the catalog, `st`, `cnt`, the candidate, and `fam`, `fmt`, `len` only where they are valid (R21). -/
theorem FeedOutcome.exists_sameValid {b : Byte} {s t s' : State} (h : FeedOutcome b s s') (hinv : s.inv = true)
    (hsame : sameValid s t) : ∃ t', FeedOutcome b t t' ∧ sameValid s' t' := by
  obtain ⟨-, -, -, -, hfr⟩ := inv_iff.1 hinv
  obtain ⟨bs, hc⟩ := exists_candidate_of_inv hinv
  obtain ⟨m, j, fid', n, ls, rfl, hct, hfam, hacc⟩ := exists_eq_of_sameValid hsame
  rw [hc, eq_comm] at hct
  have hread := read_eq_of_candidate hc hct
  have hreadp := read_eq_of_candidate (candidate_push b hc) (candidate_push b hct)
  have candidates_extended : ∀ {u v : State}, u.cnt = s.cnt + 1 → v.cnt = s.cnt + 1 → u.buf = insertCell s.cnt b s.buf →
      v.buf = insertCell s.cnt b m → u.candidate = v.candidate := fun hu hv hub hvb =>
    (candidate_extended hc hu hub).trans (candidate_extended hct hv hvb).symm
  have candidates_alone : ∀ {u v : State}, u.cnt = 1 → v.cnt = 1 → u.buf = insertCell 0 b s.buf →
      v.buf = insertCell 0 b m → u.candidate = v.candidate := fun hu hv hub hvb =>
    (candidate_one s.buf hu hub).trans (candidate_one m hv hvb).symm
  cases h with
  | sync0Hit hs hb hn ht =>
    subst ht
    exact ⟨_, .sync0Hit hs hb hn rfl, rfl, rfl, rfl, candidates_alone rfl rfl rfl rfl, rfl, rfl, rfl, by simp, by simp⟩
  | sync0Skip hs hb ht =>
    subst ht
    have hcnt := (framingOk_sync0 hs).1 hfr
    exact ⟨_, .sync0Skip hs hb rfl, sameValid_sync0 hs hs hcnt hcnt rfl rfl rfl rfl⟩
  | sync1Hit a i F hs ha hF hn ht =>
    subst ht
    obtain ⟨-, hcnt⟩ := candidate_sync1 hfr hs ha
    exact ⟨_, .sync1Hit a i F hs ((hread 0).trans ha) hF hn rfl, rfl, rfl, rfl,
      candidates_extended (by simp [hcnt]) (by simp [hcnt]) (by simp [hcnt]) (by simp [hcnt]), rfl, rfl, rfl,
      fun _ => rfl, by simp⟩
  | sync1AgainHit a hs ha hF hb hn ht =>
    subst ht
    exact ⟨_, .sync1AgainHit a hs ((hread 0).trans ha) hF hb hn rfl, rfl, rfl, rfl, candidates_alone rfl rfl rfl rfl,
      rfl, rfl, rfl, by simp [hs], by simp [hs]⟩
  | sync1AgainSkip a hs ha hF hb ht =>
    subst ht
    exact ⟨_, .sync1AgainSkip a hs ((hread 0).trans ha) hF hb rfl, sameValid_sync0 rfl rfl rfl rfl rfl rfl rfl rfl⟩
  | headerMore F hs hF hn hl ht =>
    subst ht
    obtain rfl := hfam (.inl hs)
    exact ⟨_, .headerMore F hs hF hn hl rfl, rfl, rfl, rfl, candidates_extended rfl rfl rfl rfl, rfl, rfl, rfl,
      fun _ => rfl, by simp [hs]⟩
  | dropModel F m0 m1 hs hF hn hl h0 h1 hr ht =>
    subst ht
    obtain rfl := hfam (.inl hs)
    exact ⟨_, .dropModel F m0 m1 hs hF hn hl ((hreadp _).trans h0) ((hreadp _).trans h1) hr rfl,
      sameValid_sync0 rfl rfl rfl rfl rfl rfl rfl rfl⟩
  | headerDone F m0 m1 fid len hs hF hn hl h0 h1 hr hk ht =>
    subst ht
    obtain rfl := hfam (.inl hs)
    exact ⟨_, .headerDone F m0 m1 fid len hs hF hn hl ((hreadp _).trans h0) ((hreadp _).trans h1) hr hk rfl,
      rfl, rfl, rfl, candidates_extended rfl rfl rfl rfl, rfl, rfl, rfl, fun _ => rfl, fun _ => ⟨rfl, rfl⟩⟩
  | dropLen F m0 m1 fid len hs hF hn hl h0 h1 hr hk ht =>
    subst ht
    obtain rfl := hfam (.inl hs)
    exact ⟨_, .dropLen F m0 m1 fid len hs hF hn hl ((hreadp _).trans h0) ((hreadp _).trans h1) hr hk rfl,
      sameValid_sync0 rfl rfl rfl rfl rfl rfl rfl rfl⟩
  | accumMore hs hn hl ht =>
    subst ht
    obtain rfl := hfam (.inr hs)
    obtain ⟨rfl, rfl⟩ := hacc hs
    exact ⟨_, .accumMore hs hn hl rfl, rfl, rfl, rfl, candidates_extended rfl rfl rfl rfl, rfl, rfl, rfl,
      fun _ => rfl, fun _ => ⟨rfl, rfl⟩⟩
  | emit bytes f e hs hn hl hb hf hv he ht =>
    subst ht
    obtain ⟨rfl, rfl⟩ := hacc hs
    exact ⟨_, .emit bytes f e hs hn hl ((readRange_congr fun i _ _ => hreadp i).trans hb) hf hv he rfl,
      sameValid_sync0 rfl rfl rfl rfl rfl rfl rfl rfl⟩
  | dropCksum bytes f hs hn hl hb hf hv ht =>
    subst ht
    obtain ⟨rfl, rfl⟩ := hacc hs
    exact ⟨_, .dropCksum bytes f hs hn hl ((readRange_congr fun i _ _ => hreadp i).trans hb) hf hv rfl,
      sameValid_sync0 rfl rfl rfl rfl rfl rfl rfl rfl⟩

theorem feedByte_sameValid {s t : State} (hinv : s.inv = true) (hv : sameValid s t) (b : Byte) :
    ∃ s' t', feedByte b s = .next s' ∧ feedByte b t = .next t' ∧ sameValid s' t' := by
  obtain ⟨s', hs'⟩ := feedByte_total hinv b
  obtain ⟨t', ht', hv'⟩ := (feedByte_outcome hs').exists_sameValid hinv hv
  exact ⟨s', t', hs', ht'.feedByte_eq, hv'⟩

theorem sameValid_withInput {s t : State} (hv : sameValid s t) (ops : List Op) :
    sameValid (s.withInput ops) (t.withInput ops) := by
  obtain ⟨hcat, hst, hcnt, hc, hout, -, hcommands, hfam, hacc⟩ := hv
  exact ⟨hcat, hst, hcnt, by simpa using hc, hout, rfl, hcommands, hfam, hacc⟩

theorem candidate_withCommands (s : State) (cs : List (List Byte)) :
    ({ s with commands := cs } : State).candidate = s.candidate := candidate_congr rfl rfl

/-- An operation that can be issued does the same in agreeing good states. -/
theorem runOp_sameValid {op : Op} {s t : State} (hinv : s.inv = true) (hv : sameValid s t) (hop : op.ok = true) :
    ∃ s' t', runOp op s = .next s' ∧ runOp op t = .next t' ∧ sameValid s' t' := by
  cases op with
  | reset =>
    obtain ⟨hcat, -, -, -, hout, hinput, hcommands, -, -⟩ := hv
    exact ⟨_, _, rfl, rfl, sameValid_sync0 rfl rfl rfl rfl hcat hout hinput hcommands⟩
  | feedByte b => exact feedByte_sameValid hinv hv b
  | sendCommand code payload =>
    obtain ⟨hcat, hst, hcnt, hc, hout, hinput, hcommands, hfam, hacc⟩ := hv
    have hrun : ∀ u : State, runOp (.sendCommand code payload) u =
        .next { u with commands := u.commands ++ [commandFrame u.cat code payload] } := fun u => if_pos hop
    refine ⟨_, _, hrun s, hrun t, hcat, hst, hcnt, ?_, hout, hinput, by simp [hcommands, hcat], hfam, hacc⟩
    exact (candidate_withCommands s _).trans (hc.trans (candidate_withCommands t _).symm)

theorem step_op {s : State} {op : Op} {ops : List Op} (hwf : s.cat.wf = true) (hi : s.input = op :: ops) :
    step s = runOp op (s.withInput ops) := by
  simp [step, takeOp, hwf, hi]

/-- Settles O28: a good state has an outcome of FEED_BYTE, and its tests are the same in every state that agrees on what
is valid; the other operations read nothing else either. -/
theorem invalidBitsAreUnobservable : Obligations.InvalidBitsAreUnobservable := by
  intro s t hs ht hv hop
  obtain ⟨hwfs, -⟩ := inv_iff.1 hs
  obtain ⟨hwft, -⟩ := inv_iff.1 ht
  have hinput : s.input = t.input := by obtain ⟨-, -, -, -, -, h, -⟩ := hv; exact h
  cases hi : s.input with
  | nil => exact ⟨s, t, step_idle hwfs hi, step_idle hwft (hinput ▸ hi), hv⟩
  | cons op ops =>
    rw [step_op hwfs hi, step_op hwft (hinput ▸ hi)]
    exact runOp_sameValid ((withInput_inv s ops).trans hs) (sameValid_withInput hv ops)
      (by simpa [State.nextOpOk, hi] using hop)

end Sys2Proof.Machine
end

section
/-! SUPPORT. The memory statements: a 16-bit read of two bytes (R52), and FEED in chunks or from the operation queue (R60,
R164; log 2). -/

namespace Sys2Proof

/-- The number of a 16-bit field as R52 writes it. -/
theorem le16_toNat_eq_or (lo hi : Byte) : (le16 lo hi).toNat = lo.toNat ||| hi.toNat <<< 8 := by
  have hor := Nat.shiftLeft_add_eq_or_of_lt (i := 8) lo.isLt hi.toNat
  rw [Nat.or_comm, ← hor, le16_toNat, Nat.shiftLeft_eq]
  omega

namespace Machine

/-! ## 16-bit reads -/

theorem u16le_eq_some_iff {f : List Byte} {off : Nat} {w : Word} :
    u16le f off = some w ↔ ∃ lo hi, f[off]? = some lo ∧ f[off + 1]? = some hi ∧ le16 lo hi = w := by
  unfold u16le
  cases f[off]? <;> cases f[off + 1]? <;> simp

/-- Settles O42: a 16-bit read is `le16` of the two bytes, and a word is determined by its number. -/
theorem wordReadIsLittleEndian : Obligations.WordReadIsLittleEndian := by
  intro f off w
  have word_iff (lo hi : Byte) : le16 lo hi = w ↔ w.toNat = lo.toNat ||| hi.toNat <<< 8 := by
    rw [← le16_toNat_eq_or, eq_comm, BitVec.toNat_inj]
  simp only [u16le_eq_some_iff, word_iff]

/-! ## FEED in chunks -/

theorem feed_cons_of_next {b : Byte} {bs : List Byte} {s u : State} (h : feedByte b s = .next u) :
    feed (b :: bs) s = feed bs u := by
  rw [feed, h]

theorem feed_cons_eq_next {b : Byte} {bs : List Byte} {s t : State} (h : feed (b :: bs) s = .next t) :
    ∃ u, feedByte b s = .next u ∧ feed bs u = .next t := by
  unfold feed at h
  split at h
  · exact ⟨_, ‹_›, h⟩
  · cases h
  · cases h

/-- FEED goes on from where a first chunk ended (R164). -/
theorem feed_append {xs ys : List Byte} {s t : State} (h : feed xs s = .next t) : feed (xs ++ ys) s = feed ys t := by
  induction xs generalizing s with
  | nil => cases h; rfl
  | cons x xs ih =>
    obtain ⟨u, hx, hxs⟩ := feed_cons_eq_next h
    calc feed (x :: (xs ++ ys)) s = feed (xs ++ ys) u := feed_cons_of_next hx
      _ = feed ys t := ih hxs

/-! ## FEED from the operation queue -/

/-- FEED_BYTE neither reads nor writes the operations left to take (R36; log 2). -/
theorem FeedOutcome.withInput {b : Byte} {s t : State} (h : FeedOutcome b s t) (ops : List Op) :
    FeedOutcome b (s.withInput ops) (t.withInput ops) := by
  have readRange_push {n : Nat} {bytes : List Byte} (hb : (s.push b).readRange 0 n = some bytes) :
      ((s.withInput ops).push b).readRange 0 n = some bytes := by
    rw [← hb]; exact readRange_congr fun _ _ _ => rfl
  cases h with
  | sync0Hit hs hb hn ht => exact .sync0Hit hs hb hn (ht ▸ rfl)
  | sync0Skip hs hb ht => exact .sync0Skip hs hb (ht ▸ rfl)
  | sync1Hit a i F hs ha hF hn ht => exact .sync1Hit a i F hs ha hF hn (ht ▸ rfl)
  | sync1AgainHit a hs ha hF hb hn ht => exact .sync1AgainHit a hs ha hF hb hn (ht ▸ rfl)
  | sync1AgainSkip a hs ha hF hb ht => exact .sync1AgainSkip a hs ha hF hb (ht ▸ rfl)
  | headerMore F hs hF hn hl ht => exact .headerMore F hs hF hn hl (ht ▸ rfl)
  | dropModel F m0 m1 hs hF hn hl h0 h1 hr ht => exact .dropModel F m0 m1 hs hF hn hl h0 h1 hr (ht ▸ rfl)
  | headerDone F m0 m1 fid len hs hF hn hl h0 h1 hr hk ht =>
    exact .headerDone F m0 m1 fid len hs hF hn hl h0 h1 hr hk (ht ▸ rfl)
  | dropLen F m0 m1 fid len hs hF hn hl h0 h1 hr hk ht =>
    exact .dropLen F m0 m1 fid len hs hF hn hl h0 h1 hr hk (ht ▸ rfl)
  | accumMore hs hn hl ht => exact .accumMore hs hn hl (ht ▸ rfl)
  | emit bytes f e hs hn hl hb hf hv he ht =>
    exact .emit bytes f e hs hn hl (readRange_push hb) hf hv he (ht ▸ rfl)
  | dropCksum bytes f hs hn hl hb hf hv ht =>
    exact .dropCksum bytes f hs hn hl (readRange_push hb) hf hv (ht ▸ rfl)

theorem feedByte_withInput {b : Byte} {s t : State} (h : feedByte b s = .next t) (ops : List Op) :
    feedByte b (s.withInput ops) = .next (t.withInput ops) :=
  ((feedByte_outcome h).withInput ops).feedByte_eq

/-- A byte at the head of the queue is fed, and the operations behind it stay (R36; log 2). -/
theorem step_queued_byte {b : Byte} {s t : State} (hwf : s.cat.wf = true) (h : feedByte b s = .next t) (ops : List Op) :
    step (s.withInput (.feedByte b :: ops)) = .next (t.withInput ops) :=
  calc step (s.withInput (.feedByte b :: ops))
    _ = feedByte b (s.withInput ops) := step_feed (s := s.withInput (.feedByte b :: ops)) hwf rfl
    _ = .next (t.withInput ops) := feedByte_withInput h ops

theorem run_succ_of_next {M : Host.Core} {s t : M.State} (h : M.step s = .next t) (k : Nat) :
    M.run (k + 1) s = M.run k t := by
  rw [Host.Core.run, h]

/-- Bytes queued ahead of the other operations run, one step each, to where FEED of them ends (log 2). -/
theorem run_queued_bytes {xs : List Byte} {s t : State} (hwf : s.cat.wf = true) (h : feed xs s = .next t) :
    core.run xs.length (s.withInput (xs.map .feedByte ++ s.input)) = .next t := by
  induction xs generalizing s with
  | nil => exact h
  | cons x xs ih =>
    obtain ⟨u, hx, hxs⟩ := feed_cons_eq_next h
    obtain ⟨hcat, hinput, -⟩ := feedByte_keeps hx
    have hrest := ih (hcat ▸ hwf) hxs
    rw [hinput] at hrest
    exact (run_succ_of_next (M := core) (step_queued_byte hwf hx _) _).trans hrest

/-- Settles O34: by induction on the first chunk; a queued byte's step is FEED_BYTE, which leaves the queue alone. -/
theorem chunkingIsUnobservable : Obligations.ChunkingIsUnobservable := by
  refine ⟨fun xs ys s t => feed_append, fun xs ops s t hwf hi hfeed => ?_⟩
  have hs : (s.withInput ops).withInput (xs.map .feedByte ++ ops) = s := by rw [← hi]; rfl
  exact hs ▸ run_queued_bytes (s := s.withInput ops) hwf hfeed

end Machine

end Sys2Proof
end

section
/-! SUPPORT. The encoding statements: decoding and encoding a frame undo each other (R80 to R90), the command frame read
back (R199; log 13), and every inbound format's answer on what the encoding admits (R190, R257). -/

namespace Sys2Proof

/-! ## Decoding what is encoded -/

/-- The command frame at the head of a byte sequence is read back where its length byte can say the payload's length
(R199; log 13). -/
theorem decodeCommand_commandFrame_append (cat : Catalog) (code : Byte) {payload : List Byte}
    (hp : payload.length ≤ 255) (rest : List Byte) :
    decodeCommand cat (commandFrame cat code payload ++ rest) = some (.cmd code payload, rest) := by
  have hn : (BitVec.ofNat 8 payload.length).toNat = payload.length := by simp; omega
  simp [commandFrame, decodeCommand, hn]

/-- Settles O2: an inbound instruction is a well-formed frame of its format, which decodes at the head of its bytes; the
command frame is read back by its length byte. -/
theorem encodedInstructionDecodesBack : Obligations.EncodedInstructionDecodesBack := by
  intro cat i rest hwf
  cases hi : i.inbound with
  | some p =>
    obtain ⟨fid, f⟩ := p
    obtain rfl := ofFormat_of_inbound hi
    rw [wf_ofFormat] at hwf
    exact ⟨fun _ => by rw [encode_ofFormat, decode_frame_append hwf], fun h => nomatch h⟩
  | none =>
    refine ⟨fun h => absurd rfl h, fun _ => ?_⟩
    cases i with
    | cmd code payload => exact decodeCommand_commandFrame_append cat code (of_decide_eq_true hwf) rest
    | _ => simp [Instr.inbound] at hi

/-! ## Encoding what is decoded -/

/-- The first two looks of R90: what decodes begins with a family's sync pair. -/
theorem decode_eq_ok {cat : Catalog} {bs rest : List Byte} {i : Instr} (h : decode cat bs = .ok (i, rest)) :
    ∃ a b tail j F, bs = a :: b :: tail ∧ cat.familyOf a b = some (j, F) ∧ decodeIn cat F bs = .ok (i, rest) := by
  unfold decode at h
  split at h
  · cases h
  · split at h <;> cases h
  · rename_i a b tail
    split at h
    · split at h
      · cases h
      · exact ⟨a, b, tail, _, _, rfl, ‹_›, h⟩
    · cases h

/-- The third look of R90: the header resolves to a length in range, and that many bytes split into the frame. -/
theorem decodeIn_eq_ok {cat : Catalog} {F : Family} {bs rest : List Byte} {i : Instr}
    (h : decodeIn cat F bs = .ok (i, rest)) :
    ∃ m0 m1 fid len f, bs[F.hdrLen - 2]? = some m0 ∧ bs[F.hdrLen - 1]? = some m1 ∧
      cat.resolve F m0 m1 = .format fid len ∧ cat.lengthOk F len = true ∧ len ≤ bs.length ∧
      splitFrame F.hdrLen (cat.format fid).cks.width (bs.take len) = some f ∧ i = .ofFormat fid f ∧
      rest = bs.drop len := by
  unfold decodeIn at h
  split at h
  · rename_i m0 m1 h0 h1
    split at h
    · cases h
    · cases h
    · rename_i fid len hr
      split_ifs at h with hl hle
      split at h
      · rename_i f hf
        cases h
        exact ⟨m0, m1, fid, len, f, h0, h1, hr, hl, hle, hf, rfl, rfl⟩
      · cases h
  · cases h

/-- What decodes is a well-formed frame at the head of the bytes read (R80, R90). -/
theorem frame_of_decode {cat : Catalog} {bs rest : List Byte} {i : Instr} (h : decode cat bs = .ok (i, rest)) :
    ∃ fid f, i = .ofFormat fid f ∧ f.wf cat fid = true ∧ bs = f.bytes ++ rest := by
  obtain ⟨a, b, tail, j, F, rfl, hfam, hin⟩ := decode_eq_ok h
  obtain ⟨m0, m1, fid, len, f, h0, h1, hr, hl, hle, hf, rfl, rfl⟩ := decodeIn_eq_ok hin
  obtain ⟨hbytes, hhdr, hcks, h2, -⟩ := splitFrame_bytes hf
  have hlt : F.hdrLen < len := by simp [Catalog.lengthOk] at hl; exact hl.1
  have hlen : f.bytes.length = len := by rw [hbytes, List.length_take, min_eq_left hle]
  have getElem?_bytes : ∀ i < len, f.bytes[i]? = (a :: b :: tail)[i]? := fun i hi => by
    rw [hbytes, List.getElem?_take_of_lt hi]
  have hsync0 : some f.sync0 = some a := getElem?_bytes 0 (by omega)
  have hsync1 : some f.sync1 = some b := getElem?_bytes 1 (by omega)
  obtain rfl := Option.some.inj hsync0
  obtain rfl := Option.some.inj hsync1
  refine ⟨fid, f, rfl, frame_wf_iff.2 ⟨j, F, m0, m1, hfam, hhdr, hcks, by rwa [hlen], ?_, ?_, by rwa [hlen]⟩, ?_⟩
  · rw [getElem?_bytes _ (by omega), h0]
  · rw [getElem?_bytes _ (by omega), h1]
  · rw [hbytes, List.take_append_drop]

/-- Settles O3: only the third look answers an instruction, and it has checked everything the encoding asks of a frame. -/
theorem decodedBytesEncodeBack : Obligations.DecodedBytesEncodeBack := by
  intro cat bs rest i _ h
  obtain ⟨fid, f, rfl, hwf, rfl⟩ := frame_of_decode h
  rw [wf_ofFormat, encode_ofFormat]
  exact ⟨hwf, rfl⟩

/-- Settles O1: the decoder evaluated on the eight byte sequences. -/
theorem sampleFramesDecode : Obligations.SampleFramesDecode :=
  ⟨rfl, rfl, rfl, rfl, rfl, rfl, rfl, rfl⟩

/-! ## The bound of FOLD16 -/

theorem fold16Final_le (t : Acc) : (fold16Final t).toNat ≤ 0x7FFF := by
  have hmask : (((t &&& 0x7FFF) + (t >>> 15)) &&& 0x7FFF).toNat ≤ 0x7FFF := by
    rw [BitVec.toNat_and]
    exact Nat.and_le_right
  rw [fold16Final, BitVec.toNat_setWidth]
  exact (Nat.mod_le _ _).trans hmask

/-- FOLD16 leaves bit 15 clear (R94). -/
theorem fold16_le {bs : List Byte} {r : Word} (h : fold16 bs = some r) : r.toNat ≤ 0x7FFF := by
  obtain ⟨t, -, rfl⟩ := Option.map_eq_some_iff.1 h
  exact fold16Final_le t

namespace Machine

/-- The FOLD16 validator accepts where the field read at the end is the value (R125). -/
theorem validFold16_eq_true {f : List Byte} (h : validFold16 f = .next true) :
    ∃ r, fold16 (f.take (f.length - 2)) = some r ∧ u16le f (f.length - 2) = some r := by
  unfold validFold16 at h
  split_ifs at h
  split at h
  · rename_i r field hr hfield
    obtain rfl : r = field := by simpa using h
    exact ⟨r, hr, hfield⟩
  · cases h

/-- Settles O9: FOLD16 is masked to 15 bits, and a field whose high byte has bit 7 set is above the mask. -/
theorem fold16HighBitNeverAccepted : Obligations.Fold16HighBitNeverAccepted := by
  refine ⟨fun bs r => fold16_le, fun f hi hlast hbit hvalid => ?_⟩
  obtain ⟨r, hr, hfield⟩ := validFold16_eq_true hvalid
  obtain ⟨lo, hi', hlo, hhi, rfl⟩ := u16le_eq_some_iff.1 hfield
  obtain ⟨hlen, -⟩ := List.getElem?_eq_some_iff.1 hhi
  obtain rfl : hi' = hi := by
    rw [show f.length - 2 + 1 = f.length - 1 by omega, hlast] at hhi
    exact (Option.some.inj hhi).symm
  have hbound := fold16_le hr
  have hhigh : 0x80 ≤ hi'.toNat := BitVec.le_toNat_of_msb_true (x := hi') hbit
  rw [le16_toNat] at hbound
  omega

/-! ## Every inbound format answers -/

/-- Settles O55: on a well-formed frame validator and handler have a value, and COMPLETE follows the validator. -/
theorem inboundFormatsComplete : Obligations.InboundFormatsComplete := by
  intro i fid f s hi hcat hwf
  obtain rfl := ofFormat_of_inbound hi
  rw [wf_ofFormat] at hwf
  obtain ⟨ok, hv⟩ := validate_of_wf hcat hwf
  obtain ⟨e, he⟩ := handlerEvent_of_wf hcat hwf
  refine ⟨ok, e, hv, he, ?_⟩
  rw [exec_ofFormat]
  cases ok with
  | true => exact completeFrame_of_valid hv he
  | false => exact completeFrame_of_invalid hv

end Machine

end Sys2Proof
end

section
/-! SUPPORT. The frames of `CAT_DEFAULT` built from their fields (R102 to R107, R111): each is a well-formed frame, its
validator compares the checksum field (R86), and its handler gives the fields back (R221, R236). -/

namespace Sys2Proof

/-! ## Checksum fields -/

/-- What each validator asks of the checksum field `field` after the covered bytes `g` (R86). -/
def fieldAccepted (cat : Catalog) : CksKind → List Byte → List Byte → Prop
  | .add8, g, field => field = [add8 g]
  | .fold16, g, field => (fold16 g).map wordBytes = some field
  | .crc8, g, field => (crc8 cat g).map (fun r => [r]) = some field
  | .crc8w, g, field => crc8 cat (g ++ field) = some cat.crc8Residue

/-- A field that seals `g` is one the validator asks for (R135). -/
theorem fieldAccepted_of_sealField {cat : Catalog} {kind : CksKind} {g field : List Byte}
    (hres : kind = .crc8w → cat.crc8Table[0]? = some cat.crc8Residue) (h : sealField cat kind g = some field) :
    fieldAccepted cat kind g field := by
  cases kind with
  | add8 => exact (Option.some.inj h).symm
  | fold16 => exact h
  | crc8 => exact h
  | crc8w =>
    obtain ⟨c, hc, rfl⟩ := Option.map_eq_some_iff.1 h
    have hc' : crc8From cat.crc8Table cat.crc8Init g = some c := hc
    simp [fieldAccepted, crc8, crc8From_append, hc', crc8From, hres rfl]

/-- With a table of 256 entries every byte sequence, of even length for FOLD16, has a sealing field of the kind's width
(R135, W7). -/
theorem exists_sealField {cat : Catalog} {kind : CksKind} {g : List Byte} (ht : cat.crc8Table.length = 256)
    (he : kind = .fold16 → g.length % 2 = 0) : ∃ field, sealField cat kind g = some field ∧ field.length = kind.width := by
  obtain ⟨c, hc⟩ := Option.isSome_iff_exists.1 (crc8From_isSome ht cat.crc8Init g)
  have hc' : crc8 cat g = some c := hc
  cases kind with
  | add8 => exact ⟨_, rfl, rfl⟩
  | fold16 =>
    obtain ⟨r, hr⟩ := Option.isSome_iff_exists.1 ((fold16_isSome g).trans (by simp [he rfl]))
    exact ⟨wordBytes r, by simp [sealField, hr, wordBytes], rfl⟩
  | crc8 => exact ⟨[c], by simp [sealField, hc'], rfl⟩
  | crc8w => exact ⟨[c], by simp [sealField, hc'], rfl⟩

theorem wordBytes_le16 (lo hi : Byte) : wordBytes (le16 lo hi) = [lo, hi] := by
  have hl := lo.isLt
  have hh := hi.isLt
  have h0 : (le16 lo hi).setWidth 8 = lo := BitVec.eq_of_toNat_eq (by simp [le16_toNat]; omega)
  have h1 : (le16 lo hi >>> 8).setWidth 8 = hi :=
    BitVec.eq_of_toNat_eq (by simp [le16_toNat, Nat.shiftRight_eq_div_pow]; omega)
  rw [wordBytes, h0, h1]

theorem wordBytes_eq_iff {w : Word} {lo hi : Byte} : wordBytes w = [lo, hi] ↔ w = le16 lo hi := by
  refine ⟨fun h => ?_, fun h => h ▸ wordBytes_le16 lo hi⟩
  simp only [wordBytes, List.cons.injEq, and_true] at h
  rw [← h.1, ← h.2, le16_wordBytes]

namespace Machine

theorem validAdd8_append_iff {g : List Byte} {c : Byte} : validAdd8 (g ++ [c]) = .next true ↔ c = add8 g := by
  simp [validAdd8, eq_comm]

theorem validCrc8_append_iff {cat : Catalog} {g : List Byte} {c : Byte} :
    validCrc8 cat (g ++ [c]) = .next true ↔ crc8 cat g = some c := by
  cases h : crc8 cat g <;> simp [validCrc8, h]

theorem validCrc8w_iff {cat : Catalog} {f : List Byte} :
    validCrc8w cat f = .next true ↔ crc8 cat f = some cat.crc8Residue := by
  cases h : crc8 cat f <;> simp [validCrc8w, h]

theorem validFold16_append_iff {g : List Byte} {lo hi : Byte} :
    validFold16 (g ++ [lo, hi]) = .next true ↔ fold16 g = some (le16 lo hi) := by
  have hfield : u16le (g ++ [lo, hi]) g.length = some (le16 lo hi) := by simp [u16le]
  constructor
  · intro h
    obtain ⟨r, hr, hr'⟩ := validFold16_eq_true h
    simp only [List.length_append, List.length_cons, List.length_nil, Nat.add_sub_cancel, List.take_left] at hr hr'
    rw [hr, ← hr', hfield]
  · intro h
    have heven : g.length % 2 = 0 := by simpa [h] using (fold16_isSome g).symm
    simp [validFold16, heven, h, hfield]

/-- The validator accepts exactly the fields the checksum asks for (R86, R162). -/
theorem validate_append_iff {cat : Catalog} {kind : CksKind} {g field : List Byte} (hw : field.length = kind.width) :
    validate cat kind (g ++ field) = .next true ↔ fieldAccepted cat kind g field := by
  cases kind with
  | fold16 =>
    obtain ⟨lo, hi, rfl⟩ := List.length_eq_two.1 hw
    simp [validate, fieldAccepted, validFold16_append_iff, wordBytes_eq_iff]
  | add8 =>
    obtain ⟨c, rfl⟩ := List.length_eq_one_iff.1 hw
    simp [validate, fieldAccepted, validAdd8_append_iff]
  | crc8 =>
    obtain ⟨c, rfl⟩ := List.length_eq_one_iff.1 hw
    simp [validate, fieldAccepted, validCrc8_append_iff]
  | crc8w => exact validCrc8w_iff

/-- COMPLETE on a well-formed frame `g ++ field`: the field is accepted and the frame emitted, or it is discarded (R163). -/
theorem completeFrame_of_field {fid : FormatId} {f : Frame} {s : State} {g field : List Byte} {e : Event}
    (hcat : s.cat.wf = true) (hf : f.wf s.cat fid = true) (hbytes : f.bytes = g ++ field)
    (hw : field.length = (s.cat.format fid).cks.width) (he : handlerEvent s.cat fid f = some e) :
    (fieldAccepted s.cat (s.cat.format fid).cks g field →
      completeFrame fid f s = .next (s.emit [.frameOut fid (g ++ field), e])) ∧
    (¬ fieldAccepted s.cat (s.cat.format fid).cks g field → completeFrame fid f s = .next (s.discard .dropCksum)) := by
  have hiff := validate_append_iff (cat := s.cat) (g := g) hw
  rw [← hbytes] at hiff ⊢
  rw [← hiff]
  refine ⟨fun h => completeFrame_of_valid h he, fun h => ?_⟩
  obtain ⟨ok, hv⟩ := validate_of_wf hcat hf
  cases ok with
  | true => exact absurd hv h
  | false => exact completeFrame_of_invalid hv

end Machine

end Sys2Proof
end

section
/-! SUPPORT. The frames of `CAT_DEFAULT` built from their fields (R102 to R107, R111): each is well-formed, its handler gives
the fields back (R221, R236), and COMPLETE emits or discards it as its checksum field has it (R163). -/

namespace Sys2Proof

open Machine

/-- A frame with a four-byte header is well-formed where the header's last two bytes resolve to its format and its length
(R80 to R83). -/
theorem wf_of_resolve {cat : Catalog} (hcat : cat.wf = true) {F : Family} (hF : F ∈ cat.families) (h4 : F.hdrLen = 4)
    {fid : FormatId} {m0 m1 : Byte} {body cks : List Byte} {len : Nat} (hr : cat.resolve F m0 m1 = .format fid len)
    (hlen : len = 4 + body.length + cks.length) (hw : cks.length = (cat.format fid).cks.width) :
    (⟨F.sync0, F.sync1, [m0, m1], body, cks⟩ : Frame).wf cat fid = true := by
  obtain ⟨k, hk⟩ := List.mem_iff_getElem?.1 hF
  obtain ⟨hlt, hle, -, -⟩ := wf_resolve hcat hF hr
  have hbytes : (⟨F.sync0, F.sync1, [m0, m1], body, cks⟩ : Frame).bytes.length = len := by
    rw [frame_bytes_length, hlen]; rfl
  refine frame_wf_iff.2 ⟨k, F, m0, m1, familyOf_index hcat hk, h4.symm, hw, ?_, ?_, ?_, hbytes.symm ▸ hr⟩
  · simp [hbytes, Catalog.lengthOk, hlt, hle]
  · rw [h4]; rfl
  · rw [h4]; rfl

/-- W5: a format with FOLD16 has frames of even length. -/
theorem even_len_of_fold16 {cat : Catalog} (hcat : cat.wf = true) {fid : FormatId} {d : PcLayout}
    (hk : (cat.format fid).kind = .pc d) (hc : (cat.format fid).cks = .fold16) : d.len % 2 = 0 := by
  have hok := wf_format hcat fid
  simp only [FormatRecord.ok, hk, hc, Bool.and_eq_true] at hok
  obtain ⟨⟨⟨⟨⟨⟨heven, -⟩, -⟩, -⟩, -⟩, -⟩, -⟩ := hok
  simpa using heven

/-! ## Point-cloud frames -/

/-- The family PC of `CAT_DEFAULT` (R101). -/
def pcFamily : Family where
  name := "PC"
  sync0 := 0x55
  sync1 := 0xAA
  hdrLen := 4
  mode := .model
    [⟨0x01, 0x08, .normalNoQuality⟩, ⟨0x03, 0x08, .normalQuality⟩, ⟨0x04, 0x08, .ywQuality⟩,
     ⟨0x05, 0x08, .fsTestQuality⟩, ⟨0x06, 0x0C, .t10Quality⟩]

theorem pcFamily_mem : pcFamily ∈ catDefault.families := List.mem_cons_self ..

/-- What R102 to R106 have in common: the model code `e` of PC selects `fid`, and its layout `d` puts speed, first angle,
points and last angle one after another between the header and the checksum field. -/
structure PlainFormat (fid : FormatId) (e : ModelEntry) (d : PcLayout) : Prop where
  kind : (catDefault.format fid).kind = .pc d
  resolve : catDefault.resolve pcFamily e.m0 e.m1 = .format fid d.len
  speedOff : d.speedOff = 4
  firstOff : d.firstOff = 6
  ptsOff : d.ptsOff = 8
  pointSize : d.p = d.qkind.minPoint
  lastOff : d.lastOff = 8 + d.n * d.p
  len : d.len = 10 + d.n * d.p + (catDefault.format fid).cks.width
  bias : d.bias = 0xA000
  twoPoints : 2 ≤ d.n

theorem plainFormat_of_modelCode {fid : FormatId} {e : ModelEntry} {d : PcLayout}
    (hk : (catDefault.format fid).kind = .pc d) (he : modelCodeOf fid catDefault.families = some (pcFamily, e)) :
    PlainFormat fid e d := by
  cases fid <;> cases hk <;> cases he <;> exact ⟨rfl, rfl, rfl, rfl, rfl, rfl, rfl, rfl, rfl, by decide⟩

theorem exists_modelCode {fid : FormatId} {d : PcLayout} (hk : (catDefault.format fid).kind = .pc d) :
    ∃ e, modelCodeOf fid catDefault.families = some (pcFamily, e) := by
  cases fid <;> cases hk <;> exact ⟨_, rfl⟩

/-- The frame of R111 with its parts named, and any checksum field. -/
def builtFrame (e : ModelEntry) (q : QKind) (speed first last : Word) (pts : List (Word × Word)) (field : List Byte) :
    Frame where
  sync0 := pcFamily.sync0
  sync1 := pcFamily.sync1
  header := [e.m0, e.m1]
  body := wordBytes speed ++ wordBytes first ++ pts.flatMap (pointBytes q) ++ wordBytes last
  cks := field

theorem builtFrame_bytes (e : ModelEntry) (q : QKind) (speed first last : Word) (pts : List (Word × Word))
    (field : List Byte) :
    (builtFrame e q speed first last pts field).bytes = pcFrameBody pcFamily e q speed first pts last ++ field := by
  simp [Frame.bytes, builtFrame, pcFrameBody]

theorem pcFrameBody_length (F : Family) (e : ModelEntry) (q : QKind) (speed first last : Word)
    (pts : List (Word × Word)) : (pcFrameBody F e q speed first pts last).length = 10 + pts.length * q.minPoint := by
  simp [pcFrameBody, wordBytes, pointBytes_flatMap_length, -List.length_flatMap]; omega

section
variable {fid : FormatId} {e : ModelEntry} {d : PcLayout} {speed first last : Word} {pts : List (Word × Word)}
  {field : List Byte}

/-- What FOLD16 covers has even length (W5). -/
theorem PlainFormat.pcFrameBody_even (h : PlainFormat fid e d) (hn : pts.length = d.n)
    (hc : (catDefault.format fid).cks = .fold16) :
    (pcFrameBody pcFamily e d.qkind speed first pts last).length % 2 = 0 := by
  have hlen := h.len
  have heven := even_len_of_fold16 catDefault_wf h.kind hc
  rw [hc, h.pointSize] at hlen
  rw [pcFrameBody_length, hn]
  simp only [CksKind.width] at hlen
  omega

theorem PlainFormat.builtFrame_wf (h : PlainFormat fid e d) (hn : pts.length = d.n)
    (hw : field.length = (catDefault.format fid).cks.width) :
    (builtFrame e d.qkind speed first last pts field).wf catDefault fid = true := by
  refine wf_of_resolve catDefault_wf pcFamily_mem rfl h.resolve ?_ hw
  simp only [List.length_append, pointBytes_flatMap_length, hn, hw, h.len, h.pointSize, wordBytes, List.length_cons,
    List.length_nil]
  omega

/-- The handler gives back the fields a frame was built from (R221). -/
theorem PlainFormat.handlerEvent_builtFrame (h : PlainFormat fid e d) (hn : pts.length = d.n)
    (hq : ∀ p ∈ pts, (d.qkind = .none → p.2 = 0) ∧ (d.qkind = .u8 → p.2.toNat < 256)) :
    handlerEvent catDefault fid (builtFrame e d.qkind speed first last pts field) =
      some (.pointsOut (batchOf .identity fid d ⟨speed, first, last, pts⟩)) := by
  have hfields : pcFields d (builtFrame e d.qkind speed first last pts field).bytes = some ⟨speed, first, last, pts⟩ := by
    rw [builtFrame_bytes]
    exact pcFields_of_built d _ _ _ _ _ _ _ _ _ h.speedOff h.firstOff h.ptsOff h.pointSize h.lastOff hn hq
  simp only [handlerEvent, h.kind, decodePoints, hfields, Option.map_some]
  rfl

end

/-! ## The batch spelled out -/

theorem decodePointList_eq_map {r : Rounding} {d : PcLayout} {sp : Rat} {a b : Int} {raws : List (Word × Word)} {i : Nat} :
    decodePointList r d sp a b i raws = (raws.zipIdx i).map fun x => decodePoint r d sp a b x.2 x.1 := by
  induction raws generalizing i with
  | nil => rfl
  | cons raw raws ih => rw [decodePointList, ih, List.zipIdx_cons, List.map_cons]

/-- The points of a batch carry their raw fields, in frame order (R222, R234). -/
theorem decodePointList_raw {r : Rounding} {d : PcLayout} {sp : Rat} {a b : Int} {raws : List (Word × Word)} {i : Nat} :
    (decodePointList r d sp a b i raws).map (fun p => (p.distRaw, p.qualityRaw)) = raws := by
  rw [decodePointList_eq_map, List.map_map]
  exact List.zipIdx_map_fst i raws

/-- Bias removal with the bias of `CAT_DEFAULT` (R102 to R106, R224). -/
theorem angleCount_of_bias {d : PcLayout} (hbias : d.bias = 0xA000) (w : Word) :
    angleCount d w = (w.toNat : Int) - 40960 := by
  rw [angleCount, hbias]
  rfl

/-- `span` of the raw angles: the bias cancels (R224, R225). -/
theorem angleSpan_angleCount (d : PcLayout) (first last : Word) :
    angleSpan d (angleCount d first) (angleCount d last) =
      if first.toNat ≤ last.toNat then (last.toNat : Int) - first.toNat
      else (last.toNat : Int) + 360 * d.u - first.toNat := by
  unfold angleSpan angleCount
  split_ifs <;> omega

/-- DecodePoints without rounding, as R223 to R230 spell it out for the bias of `CAT_DEFAULT`. -/
theorem batchOf_identity {fid : FormatId} {d : PcLayout} {speed first last : Word} {pts : List (Word × Word)}
    (hbias : d.bias = 0xA000) (hn : pts.length = d.n) (h2 : 2 ≤ d.n) :
    batchOf .identity fid d ⟨speed, first, last, pts⟩ =
      spelledBatch fid d.u d.speedScale d.qScale speed first last pts := by
  have hdiffer : angleDiffer d (angleCount d first) (angleCount d last) =
      (spelledBatch fid d.u d.speedScale d.qScale speed first last pts).angleDiffer := by
    rw [angleDiffer, if_neg (by omega), angleSpan_angleCount, ← hn]
    rfl
  have hangle (j : Nat) : pointAngle d (angleCount d first) (angleCount d last) j =
      fmod360 (((first.toNat : Rat) - 40960) / d.u +
        (spelledBatch fid d.u d.speedScale d.qScale speed first last pts).angleDiffer * j) := by
    rw [pointAngle, hdiffer, angleCount_of_bias hbias]
    push_cast
    rfl
  simp only [batchOf, decodePointList_eq_map, decodePoint, roundOut, hangle, hdiffer, distanceMm_eq]
  simp only [angleCount_of_bias hbias]
  rfl

/-! ## The point-cloud formats -/

/-- The rule of a point-cloud format of `CAT_DEFAULT`, read off its record and its model code. -/
theorem pcFormatRule_of_modelCode {fid : FormatId} {e : ModelEntry} {d : PcLayout}
    (hk : (catDefault.format fid).kind = .pc d) (he : modelCodeOf fid catDefault.families = some (pcFamily, e)) :
    pcFormatRule (.ofFormat fid) fid e.m0 e.m1 d.qkind d.n d.u d.speedScale d.qScale (catDefault.format fid).cks.width
      (fieldAccepted catDefault (catDefault.format fid).cks) := by
  intro speed first last pts field hn hq hw
  have hp := plainFormat_of_modelCode hk he
  have hbytes := builtFrame_bytes e d.qkind speed first last pts field
  have hwf := hp.builtFrame_wf (speed := speed) (first := first) (last := last) hn hw
  have hevent := hp.handlerEvent_builtFrame (speed := speed) (first := first) (last := last) (field := field) hn hq
  rw [batchOf_identity hp.bias hn hp.twoPoints] at hevent
  refine ⟨_, _, rfl, hbytes, by simpa using decode_frame_append hwf [], fun s hs => ?_⟩
  rw [exec_ofFormat]
  rw [← hs] at hwf hw hevent ⊢
  exact completeFrame_of_field (hs ▸ catDefault_wf) hwf hbytes hw hevent

/-- Settles O47: the general rule at the record of R102, whose checksum is FOLD16. -/
theorem normalNoQualityRule : Obligations.NormalNoQualityRule :=
  (pcFormatRule_of_modelCode (fid := .normalNoQuality) rfl rfl :)

/-- Settles O48: the general rule at the record of R103, whose checksum is FOLD16. -/
theorem normalQualityRule : Obligations.NormalQualityRule :=
  (pcFormatRule_of_modelCode (fid := .normalQuality) rfl rfl :)

/-- Settles O49: the general rule at the record of R104, whose checksum is FOLD16. -/
theorem ywQualityRule : Obligations.YwQualityRule :=
  (pcFormatRule_of_modelCode (fid := .ywQuality) rfl rfl :)

/-- Settles O50: the general rule at the record of R105, whose checksum is CRC8. -/
theorem fsTestQualityRule : Obligations.FsTestQualityRule :=
  (pcFormatRule_of_modelCode (fid := .fsTestQuality) rfl rfl :)

/-- Settles O51: the general rule at the record of R106, whose checksum is CRC8W. -/
theorem t10QualityRule : Obligations.T10QualityRule :=
  (pcFormatRule_of_modelCode (fid := .t10Quality) rfl rfl :)

/-! ## The info and fault formats -/

/-- What R107 says of the family `F` of an info or fault format `fid`. -/
structure InfoFamily (fid : FormatId) (F : Family) : Prop where
  mem : F ∈ catDefault.families
  hdrLen : F.hdrLen = 4
  mode : F.mode = .plen fid 5
  kind : (catDefault.format fid).kind = .info
  cks : (catDefault.format fid).cks = .add8

/-- The frame of R111 with its parts named, and any checksum byte. -/
def builtInfoFrame (F : Family) (code : Byte) (payload : List Byte) (sum : Byte) : Frame where
  sync0 := F.sync0
  sync1 := F.sync1
  header := [code, BitVec.ofNat 8 payload.length]
  body := payload
  cks := [sum]

section
variable {fid : FormatId} {F : Family} {code sum : Byte} {payload : List Byte}

theorem InfoFamily.builtInfoFrame_wf (h : InfoFamily fid F) (hp : payload.length ≤ 255) :
    (builtInfoFrame F code payload sum).wf catDefault fid = true := by
  have hr : catDefault.resolve F code (BitVec.ofNat 8 payload.length) = .format fid (payload.length + 5) := by
    have hn : (BitVec.ofNat 8 payload.length).toNat = payload.length := by simp; omega
    simp [Catalog.resolve, h.mode, hn]
  exact wf_of_resolve catDefault_wf h.mem h.hdrLen hr (by simp; omega) (by rw [h.cks]; rfl)

/-- The handler gives back the command code and the payload (R236). -/
theorem InfoFamily.handlerEvent_builtInfoFrame (h : InfoFamily fid F) :
    handlerEvent catDefault fid (builtInfoFrame F code payload sum) =
      some (.infoOut { fmt := fid, cmd := code, payloadLen := BitVec.ofNat 8 payload.length, payload := payload }) := by
  simp [handlerEvent, h.kind, decodeInfo, infoFields, builtInfoFrame, Frame.hdrLen, Frame.bytes]

end

/-- The rule of an info or fault format of `CAT_DEFAULT`, read off its family. -/
theorem infoFormatRule_of_family {fid : FormatId} {F : Family} (h : InfoFamily fid F) :
    infoFormatRule (.ofFormat fid) fid F.sync0 F.sync1 := by
  intro code sum payload hp
  have hwf := h.builtInfoFrame_wf (code := code) (sum := sum) hp
  have hevent := h.handlerEvent_builtInfoFrame (code := code) (sum := sum) (payload := payload)
  refine ⟨builtInfoFrame F code payload sum, _, rfl, rfl, by simpa using decode_frame_append hwf [], fun s hs => ?_⟩
  have hcks : (s.cat.format fid).cks = .add8 := hs ▸ h.cks
  rw [exec_ofFormat]
  rw [← hs] at hwf hevent
  have hcomplete := completeFrame_of_field (s := s) (field := [sum])
    (g := F.sync0 :: F.sync1 :: code :: BitVec.ofNat 8 payload.length :: payload) (hs ▸ catDefault_wf) hwf rfl (by rw [hcks]; rfl) hevent
  simpa [hcks, fieldAccepted] using hcomplete

/-- The family UP of `CAT_DEFAULT` (R101). -/
def upFamily : Family := ⟨"UP", 0xA5, 0x5A, 4, .plen .upBoardInfo 5⟩

/-- The family DN of `CAT_DEFAULT` (R101). -/
def downFamily : Family := ⟨"DN", 0x5A, 0xA5, 4, .plen .downBoardInfo 5⟩

/-- The family FAULT of `CAT_DEFAULT` (R101). -/
def faultFamily : Family := ⟨"FAULT", 0xA5, 0xEE, 4, .plen .errorFault 5⟩

theorem infoFamily_upBoardInfo : InfoFamily .upBoardInfo upFamily := ⟨by decide, rfl, rfl, rfl, rfl⟩

theorem infoFamily_downBoardInfo : InfoFamily .downBoardInfo downFamily := ⟨by decide, rfl, rfl, rfl, rfl⟩

theorem infoFamily_errorFault : InfoFamily .errorFault faultFamily := ⟨by decide, rfl, rfl, rfl, rfl⟩

/-- Settles O52: the general rule at the family FAULT. -/
theorem errorFaultRule : Obligations.ErrorFaultRule := infoFormatRule_of_family infoFamily_errorFault

/-- Settles O53: the general rule at the family UP. -/
theorem upBoardInfoRule : Obligations.UpBoardInfoRule := infoFormatRule_of_family infoFamily_upBoardInfo

/-- Settles O54: the general rule at the family DN. -/
theorem downBoardInfoRule : Obligations.DownBoardInfoRule := infoFormatRule_of_family infoFamily_downBoardInfo

end Sys2Proof
end

section
/-! SUPPORT. A well-formed frame fed from SYNC0: every byte short of the last extends the candidate (R153 to R160), and the
last runs COMPLETE on that frame (R161, R168); and what of `CAT_DEFAULT` is fed so: the builder's frames and the command
frame. -/

namespace Sys2Proof

/-- The four parts of a well-formed frame's bytes are the frame (R80). -/
theorem split_of_wf {cat : Catalog} {fid : FormatId} {f : Frame} (hf : f.wf cat fid = true) :
    cat.split fid f.bytes = some f := by
  obtain ⟨j, F, m0, m1, hj, hh, hw, -⟩ := frame_wf_iff.1 hf
  calc cat.split fid f.bytes = splitFrame F.hdrLen (cat.format fid).cks.width f.bytes := by
        simp [Catalog.split, Frame.bytes, hj]
    _ = some f := by rw [← hh, ← hw]; exact splitFrame_of_bytes f

namespace Machine

/-! ## A frame half fed -/

/-- The framing state after the first `k` bytes of a frame with header length `h` (R153 to R160). -/
def stageAt (h k : Nat) : FramingState :=
  if k = 0 then .sync0 else if k = 1 then .sync1 else if k < h then .header else .accum

theorem stageAt_header {h k : Nat} (h2 : 2 ≤ k) (hk : k < h) : stageAt h k = .header := by
  rw [stageAt, if_neg (by omega), if_neg (by omega), if_pos hk]

theorem stageAt_accum {h k : Nat} (h2 : 2 ≤ k) (hk : h ≤ k) : stageAt h k = .accum := by
  rw [stageAt, if_neg (by omega), if_neg (by omega), if_neg (by omega)]

/-- A good state `s` in which exactly the first `k` bytes of the well-formed frame `f` are buffered, with nothing emitted
since the state `o`. -/
structure MidFrame (fid : FormatId) (f : Frame) (o : State) (k : Nat) (s : State) : Prop where
  inv : s.inv = true
  wf : f.wf s.cat fid = true
  candidate : s.candidate = some (f.bytes.take k)
  stage : s.st = stageAt f.hdrLen k
  out : s.out = o.out
  cat : s.cat = o.cat

/-- The first bytes of a frame begin with its own sync pair (R80). -/
theorem sync_of_take {f : Frame} {k : Nat} {a b : Byte} {rest : List Byte} (h : f.bytes.take k = a :: b :: rest) :
    a = f.sync0 ∧ b = f.sync1 := by
  have hbytes : a :: b :: (rest ++ f.bytes.drop k) = f.bytes := by
    rw [← List.cons_append, ← List.cons_append, ← h, List.take_append_drop]
  obtain ⟨ha, htail⟩ := List.cons.inj hbytes
  exact ⟨ha, (List.cons.inj htail).1⟩

section
variable {fid : FormatId} {f : Frame} {k : Nat} {b : Byte} {o s t : State}

theorem midFrame_zero (hinv : s.inv = true) (hs : s.st = .sync0) (hf : f.wf s.cat fid = true) : MidFrame fid f s 0 s := by
  obtain ⟨-, -, -, -, hfr⟩ := inv_iff.1 hinv
  exact ⟨hinv, hf, candidate_of_zero ((framingOk_sync0 hs).1 hfr), hs, rfl, rfl⟩

theorem MidFrame.cnt (h : MidFrame fid f o k s) (hk : k < f.bytes.length) : s.cnt = k := by
  rw [← candidate_length h.candidate, List.length_take, min_eq_left hk.le]

/-- In HEADER the family register selects the frame's own family (R27, I2). -/
theorem MidFrame.family_of_header (h : MidFrame fid f o k s) (hs : s.st = .header) :
    ∃ F, s.cat.families[s.fam]? = some F ∧ s.cat.familyOf f.sync0 f.sync1 = some (s.fam, F) := by
  obtain ⟨hwf, -, -, -, hfr⟩ := inv_iff.1 h.inv
  obtain ⟨F, rest, hc, hF, -⟩ := (framingOk_header hs).1 hfr
  obtain ⟨h0, h1⟩ := sync_of_take (Option.some.inj (h.candidate.symm.trans hc))
  exact ⟨F, hF, by rw [← h0, ← h1, familyOf_index hwf hF]⟩

/-- In ACCUM `fmt` and `len` are the frame's format and length (R27, I3). -/
theorem MidFrame.resolved_of_accum (h : MidFrame fid f o k s) (hs : s.st = .accum) :
    s.fmt = fid ∧ s.len = f.bytes.length ∧ s.len ≤ s.cat.bufSize := by
  obtain ⟨hwf, -, -, -, hfr⟩ := inv_iff.1 h.inv
  obtain ⟨F, rest, m0, m1, hc, hF, -, -, hle, h0, h1, hr⟩ := (framingOk_accum hs).1 hfr
  have htake := Option.some.inj (h.candidate.symm.trans hc)
  obtain ⟨hs0, hs1⟩ := sync_of_take htake
  obtain ⟨j, G, n0, n1, hj, -, -, -, g0, g1, hr'⟩ := frame_wf_iff.1 h.wf
  have hfam := familyOf_index hwf hF
  rw [hs0, hs1, hj] at hfam
  cases hfam
  have getElem?_bytes {i : Nat} {m : Byte} (hi : (f.bytes.take k)[i]? = some m) : f.bytes[i]? = some m := by
    rw [List.getElem?_take] at hi
    split_ifs at hi
    exact hi
  rw [← htake] at h0 h1
  obtain rfl := Option.some.inj ((getElem?_bytes h0).symm.trans g0)
  obtain rfl := Option.some.inj ((getElem?_bytes h1).symm.trans g1)
  obtain ⟨hfmt, hlen⟩ : s.fmt = fid ∧ s.len = f.bytes.length := by simpa using hr.symm.trans hr'
  exact ⟨hfmt, hlen, hle⟩

/-- An outcome that appends the frame's next byte and emits nothing goes on with the frame. -/
theorem MidFrame.extend (h : MidFrame fid f o k s) (hb : f.bytes[k]? = some b) (ho : FeedOutcome b s t)
    (hcnt : t.cnt = s.cnt + 1) (hbuf : t.buf = insertCell s.cnt b s.buf) (hst : t.st = stageAt f.hdrLen (k + 1))
    (hout : t.out = s.out) : ∃ t, feedByte b s = .next t ∧ MidFrame fid f o (k + 1) t := by
  refine ⟨t, ho.feedByte_eq, ho.inv h.inv, ho.cat ▸ h.wf, ?_, hst, hout.trans h.out, ho.cat.trans h.cat⟩
  rw [candidate_extended h.candidate hcnt hbuf, List.take_add_one, hb]
  rfl

/-- The first sync byte is buffered (R153). -/
theorem MidFrame.feedByte_sync0 (h : MidFrame fid f o 0 s) (hb : f.bytes[0]? = some b) :
    ∃ t, feedByte b s = .next t ∧ MidFrame fid f o 1 t := by
  obtain ⟨hwf, hfit, -, -, -⟩ := inv_iff.1 h.inv
  obtain ⟨j, F, -, -, hj, -⟩ := frame_wf_iff.1 h.wf
  have hroom := two_lt_bufSize hwf hfit (familyOf_mem hj)
  have hcnt : s.cnt = 0 := (candidate_length h.candidate).symm
  obtain rfl : f.sync0 = b := Option.some.inj hb
  exact h.extend hb (.sync0Hit h.stage (inFirst_of_familyOf hj) (by omega) rfl) (by simp [hcnt]) (by simp [hcnt]) rfl rfl

/-- The second sync byte selects the frame's family (R154). -/
theorem MidFrame.feedByte_sync1 (h : MidFrame fid f o 1 s) (hb : f.bytes[1]? = some b) :
    ∃ t, feedByte b s = .next t ∧ MidFrame fid f o 2 t := by
  obtain ⟨hwf, hfit, -, -, -⟩ := inv_iff.1 h.inv
  obtain ⟨j, F, -, -, hj, hh, -⟩ := frame_wf_iff.1 h.wf
  have hroom := two_lt_bufSize hwf hfit (familyOf_mem hj)
  have hhdr := wf_header hwf (familyOf_mem hj)
  have hcnt : s.cnt = 1 := (candidate_length h.candidate).symm
  have hread : s.read 0 = some f.sync0 := (candidate_getElem h.candidate (by omega)).symm
  obtain rfl : f.sync1 = b := Option.some.inj hb
  exact h.extend hb (.sync1Hit f.sync0 j F h.stage hread hj (by omega) rfl) (by simp [hcnt]) (by simp [hcnt])
    (stageAt_header le_rfl (by omega)).symm rfl

/-- A byte of the rest of the header is buffered, and the last one resolves to the frame's format and length (R156 to
R158). -/
theorem MidFrame.feedByte_header (h : MidFrame fid f o k s) (h2 : 2 ≤ k) (hk : k < f.hdrLen)
    (hb : f.bytes[k]? = some b) : ∃ t, feedByte b s = .next t ∧ MidFrame fid f o (k + 1) t := by
  obtain ⟨-, hfit, -, -, -⟩ := inv_iff.1 h.inv
  obtain ⟨j, G, m0, m1, hj, hh, -, hl, h0, h1, hr⟩ := frame_wf_iff.1 h.wf
  have hs : s.st = .header := h.stage.trans (stageAt_header h2 hk)
  obtain ⟨F, hF, hj'⟩ := h.family_of_header hs
  obtain rfl : F = G := by cases hj.symm.trans hj'; rfl
  have hfits := headersFit_iff.1 hfit F (familyOf_mem hj)
  have hcnt : s.cnt = k := h.cnt (List.getElem?_eq_some_iff.1 hb).1
  by_cases hmore : k + 1 < f.hdrLen
  · exact h.extend hb (.headerMore F hs hF (by omega) (by omega) rfl) rfl rfl
      (hs.trans (stageAt_header (by omega) hmore).symm) rfl
  · have hcand : (s.push b).candidate = some (f.bytes.take (k + 1)) := by
      rw [candidate_push b h.candidate, List.take_add_one, hb]
      rfl
    have read_push {i : Nat} {m : Byte} (hi : i < k + 1) (hm : f.bytes[i]? = some m) :
        (s.push b).read i = some m := by
      rw [← candidate_getElem hcand (by simp [hcnt, hi]), List.getElem?_take_of_lt hi, hm]
    exact h.extend hb
      (.headerDone F m0 m1 fid _ hs hF (by omega) (by omega) (read_push (by omega) h0) (read_push (by omega) h1) hr hl rfl)
      rfl rfl (stageAt_accum (by omega) (by omega)).symm rfl

/-- FEED_BYTE of the frame's next byte, short of the last, buffers it and emits nothing (R153 to R160). -/
theorem MidFrame.feedByte_next (h : MidFrame fid f o k s) (hk : k + 1 < f.bytes.length) (hb : f.bytes[k]? = some b) :
    ∃ t, feedByte b s = .next t ∧ MidFrame fid f o (k + 1) t := by
  match k with
  | 0 => exact h.feedByte_sync0 hb
  | 1 => exact h.feedByte_sync1 hb
  | k + 2 =>
    by_cases hhead : k + 2 < f.hdrLen
    · exact h.feedByte_header (by omega) hhead hb
    · have hs : s.st = .accum := h.stage.trans (stageAt_accum (by omega) (by omega))
      have hcnt : s.cnt = k + 2 := h.cnt (by omega)
      obtain ⟨-, hlen, hle⟩ := h.resolved_of_accum hs
      exact h.extend hb (.accumMore hs (by omega) (by omega) rfl) rfl rfl
        (hs.trans (stageAt_accum (by omega) (by omega)).symm) rfl

/-- FEED_BYTE of the frame's last byte is COMPLETE on the frame (R161, R162). -/
theorem MidFrame.feedByte_last (h : MidFrame fid f o k s) (hk : k + 1 = f.bytes.length) (hb : f.bytes[k]? = some b) :
    feedByte b s = completeFrame fid f (s.startStep.push b) := by
  obtain ⟨hwf, -, -, -, -⟩ := inv_iff.1 h.inv
  obtain ⟨hhdr, -, hlt, -, -⟩ := frame_wf_length hwf h.wf
  have hcnt : s.cnt = k := h.cnt (by omega)
  have hs : s.st = .accum := h.stage.trans (stageAt_accum (by omega) (by omega))
  obtain ⟨rfl, hlen, hle⟩ := h.resolved_of_accum hs
  have hrange : (s.push b).readRange 0 s.len = some f.bytes := by
    have hcand := candidate_push b h.candidate
    rw [← List.take_length (l := f.bytes), ← hk, List.take_add_one, hb]
    rwa [State.candidate, State.push_cnt, hcnt, hk, ← hlen] at hcand
  exact feedByte_accum_last hs (by omega) (by omega) hrange (split_of_wf h.wf)

/-! ## A whole frame fed -/

/-- FEED of the first bytes of a well-formed frame, short of the last, from a good SYNC0 state buffers them and emits
nothing (R168, R171). -/
theorem feed_take_frame (hinv : s.inv = true) (hs : s.st = .sync0) (hf : f.wf s.cat fid = true)
    (hk : k < f.bytes.length) : ∃ t, feed (f.bytes.take k) s = .next t ∧ MidFrame fid f s k t := by
  induction k with
  | zero => exact ⟨s, rfl, midFrame_zero hinv hs hf⟩
  | succ k ih =>
    obtain ⟨u, hfeed, hu⟩ := ih (by omega)
    obtain ⟨t, hstep, ht⟩ := hu.feedByte_next hk (List.getElem?_eq_getElem (by omega))
    refine ⟨t, ?_, ht⟩
    rw [← List.take_append_getElem (by omega), feed_snoc hfeed, hstep]

/-- FEED of a well-formed frame from a good SYNC0 state is COMPLETE on that frame, nothing emitted before (R168, R171). -/
theorem feed_frame (hinv : s.inv = true) (hs : s.st = .sync0) (hf : f.wf s.cat fid = true) :
    ∃ u, feed f.bytes s = completeFrame fid f u ∧ u.cat = s.cat ∧ u.out = s.out := by
  obtain ⟨n, hn⟩ : ∃ n, f.bytes.length = n + 1 := ⟨_, rfl⟩
  obtain ⟨t, hfeed, ht⟩ := feed_take_frame hinv hs hf (k := n) (by omega)
  refine ⟨t.startStep.push f.bytes[n], ?_, ht.cat, ht.out⟩
  rw [← ht.feedByte_last hn.symm (List.getElem?_eq_getElem (by omega)), ← feed_snoc hfeed, List.take_append_getElem, ← hn,
    List.take_length]

/-- A well-formed frame that its validator accepts is emitted with its handler's event (R163, R168). -/
theorem feed_frame_emitted {e : Event} (hinv : s.inv = true) (hs : s.st = .sync0) (hf : f.wf s.cat fid = true)
    (hv : validate s.cat (s.cat.format fid).cks f.bytes = .next true) (he : handlerEvent s.cat fid f = some e) :
    ∃ t, feed f.bytes s = .next t ∧ t.out = s.out ++ [.frameOut fid f.bytes, e] ∧ t.st = .sync0 ∧ t.cnt = 0 := by
  obtain ⟨u, hfeed, hcat, hout⟩ := feed_frame hinv hs hf
  rw [← hcat] at hv he
  exact ⟨_, hfeed.trans (completeFrame_of_valid hv he), by rw [State.emit_out, hout], rfl, rfl⟩

/-! ## Frames of `CAT_DEFAULT` fed -/

/-- The checksum byte that INFOFRAME writes (R111). -/
def infoSum (F : Family) (code : Byte) (payload : List Byte) : Byte :=
  add8 (F.sync0 :: F.sync1 :: code :: BitVec.ofNat 8 payload.length :: payload)

theorem infoFrame_eq (F : Family) (code : Byte) (payload : List Byte) :
    infoFrame F code payload = (builtInfoFrame F code payload (infoSum F code payload)).bytes := rfl

/-- The frame of R111's INFOFRAME is emitted with its record: its last byte is the ADD8 of the bytes before it. -/
theorem feed_infoFrame {F : Family} {code : Byte} {payload : List Byte} (h : InfoFamily fid F)
    (hp : payload.length ≤ 255) (hinv : s.inv = true) (hcat : s.cat = catDefault) (hs : s.st = .sync0) :
    ∃ t, feed (infoFrame F code payload) s = .next t ∧
      t.out = s.out ++ [.frameOut fid (infoFrame F code payload),
        .infoOut { fmt := fid, cmd := code, payloadLen := BitVec.ofNat 8 payload.length, payload := payload }] ∧
      t.st = .sync0 ∧ t.cnt = 0 := by
  rw [infoFrame_eq]
  have hvalid := (validate_append_iff (cat := catDefault) (kind := .add8) (field := [infoSum F code payload]) rfl).2 rfl
  exact feed_frame_emitted hinv hs (hcat ▸ h.builtInfoFrame_wf hp) (by rw [hcat, h.cks]; exact hvalid)
    (hcat ▸ h.handlerEvent_builtInfoFrame)

end

/-- Settles O58: the command frame is INFOFRAME of the family UP (D33). -/
theorem commandFrameIsUpBoardInfo : Obligations.CommandFrameIsUpBoardInfo := by
  intro code payload s hp hinv hcat hs
  have hframe : commandFrame catDefault code payload = infoFrame upFamily code payload := rfl
  obtain ⟨t, hfeed, hout, hst, hcnt⟩ := feed_infoFrame (code := code) infoFamily_upBoardInfo hp hinv hcat hs
  rw [hframe]
  exact ⟨t, hfeed, hst, hcnt, hout⟩

/-- The builder PCFRAME appends the field that seals its frame (R111, R135). -/
theorem pcFrame_eq {fid : FormatId} {e : ModelEntry} {d : PcLayout} {speed first last : Word} {pts : List (Word × Word)}
    {field : List Byte} (hk : (catDefault.format fid).kind = .pc d)
    (he : modelCodeOf fid catDefault.families = some (pcFamily, e))
    (hfield : sealField catDefault (catDefault.format fid).cks (pcFrameBody pcFamily e d.qkind speed first pts last) =
      some field) :
    pcFrame catDefault fid speed first pts last = some (pcFrameBody pcFamily e d.qkind speed first pts last ++ field) := by
  simp only [pcFrame, hk, he, hfield, Option.map_some]

/-- Settles O59: the frame of R111 is well-formed, its field seals it, and its handler reads its fields back. -/
theorem builtPointFrameIsEmitted : Obligations.BuiltPointFrameIsEmitted := by
  intro fid d speed first last pts s hk hn hq hinv hcat hs
  obtain ⟨e, he⟩ := exists_modelCode hk
  have hp := plainFormat_of_modelCode hk he
  obtain ⟨field, hfield, hw⟩ := exists_sealField (cat := catDefault) (kind := (catDefault.format fid).cks)
    (g := pcFrameBody pcFamily e d.qkind speed first pts last) (wf_table catDefault_wf) (hp.pcFrameBody_even hn)
  have hwf := hp.builtFrame_wf (speed := speed) (first := first) (last := last) hn hw
  have hvalid := (validate_append_iff hw).2 (fieldAccepted_of_sealField (fun _ => rfl) hfield)
  have hevent := hp.handlerEvent_builtFrame (speed := speed) (first := first) (last := last) (field := field) hn hq
  rw [← builtFrame_bytes] at hvalid
  rw [← hcat] at hwf hvalid hevent
  obtain ⟨t, hfeed, hout, hst, hcnt⟩ := feed_frame_emitted hinv hs hwf hvalid hevent
  exact ⟨_, _, t, (pcFrame_eq hk he hfield).trans (congrArg some (builtFrame_bytes ..).symm), hfeed, hout, hst, hcnt, rfl,
    rfl, angleCount_of_bias hp.bias first, angleCount_of_bias hp.bias last, decodePointList_raw⟩

end Machine

end Sys2Proof
end

section
/-! SUPPORT. The checksum statements (40_checksum): ADD8 as a sum, FOLD16 as a weighted word sum, CRC8 as a chain of table
look-ups that loses nothing with a table without repeats, and what each validator compares (R121 to R135). -/

namespace Sys2Proof

/-! ## ADD8 -/

theorem add8_toNat (bs : List Byte) : (add8 bs).toNat = (bs.map BitVec.toNat).sum % 256 := by
  induction bs with
  | nil => rfl
  | cons b bs ih => simp [add8_cons, ih]

theorem add8_perm {xs ys : List Byte} (h : xs.Perm ys) : add8 xs = add8 ys := by
  rw [← BitVec.toNat_inj, add8_toNat, add8_toNat, (h.map _).sum_eq]

/-- Settles O6: a sum modulo 256 has no order, and a zero byte adds nothing to it. -/
theorem add8IsSumModulo256 : Obligations.Add8IsSumModulo256 := by
  refine ⟨add8_toNat, fun _ _ => add8_perm, fun xs ys => ?_, rfl, rfl, rfl, rfl⟩
  simp [add8_append, add8_cons]

/-! ## FOLD16 -/

theorem exists_fold16 {bs : List Byte} (heven : bs.length % 2 = 0) : ∃ r, fold16 bs = some r :=
  Option.isSome_iff_exists.1 ((fold16_isSome bs).trans (beq_iff_eq.2 heven))

theorem fold16Step_toNat (t : Acc) (lo hi : Byte) :
    ((t <<< 1) + (le16 lo hi).setWidth 32).toNat ≡ t.toNat * 2 + (lo.toNat + 256 * hi.toNat) [MOD 2 ^ 32] := by
  simp [Nat.ModEq, le16_toNat, Nat.shiftLeft_eq, BitVec.toNat_shiftLeft]

/-- The accumulator is the weighted word sum modulo its width, the words before it weighing more by each word since
(R126 (b)). -/
theorem fold16From_toNat {t u : Acc} {bs : List Byte} (h : fold16From t bs = some u) :
    u.toNat ≡ t.toNat * 2 ^ (bs.length / 2) + foldWordSum bs [MOD 2 ^ 32] := by
  fun_induction fold16From t bs with
  | case1 t => cases h; simp [foldWordSum, Nat.ModEq.rfl]
  | case2 => cases h
  | case3 t lo hi bs ih =>
    have hlen : (lo :: hi :: bs).length / 2 = bs.length / 2 + 1 := Nat.add_div_right bs.length two_pos
    calc u.toNat
      _ ≡ ((t <<< 1) + (le16 lo hi).setWidth 32).toNat * 2 ^ (bs.length / 2) + foldWordSum bs [MOD 2 ^ 32] := ih h
      _ ≡ (t.toNat * 2 + (lo.toNat + 256 * hi.toNat)) * 2 ^ (bs.length / 2) + foldWordSum bs [MOD 2 ^ 32] :=
        ((fold16Step_toNat t lo hi).mul_right _).add_right _
      _ = t.toNat * 2 ^ ((lo :: hi :: bs).length / 2) + foldWordSum (lo :: hi :: bs) := by
        rw [hlen, foldWordSum]; ring

/-- The final fold reads bits 29 to 0 of the accumulator (R126). -/
theorem fold16Final_toNat (t : Acc) :
    (fold16Final t).toNat = (t.toNat % 2 ^ 30 % 2 ^ 15 + t.toNat % 2 ^ 30 / 2 ^ 15 % 2 ^ 15) % 2 ^ 15 := by
  have hmask (x : Acc) : (x &&& 0x7FFF#32).toNat = x.toNat % 2 ^ 15 := Nat.and_two_pow_sub_one_eq_mod x.toNat 15
  have hfold : fold16Final t = (((t &&& 0x7FFF#32) + (t >>> 15)) &&& 0x7FFF#32).setWidth 16 := rfl
  rw [hfold, BitVec.toNat_setWidth, hmask, BitVec.toNat_add, hmask, BitVec.toNat_ushiftRight,
    Nat.shiftRight_eq_div_pow]
  omega

/-- Settles O7: the accumulator is the weighted word sum modulo 2^32, of which the fold reads 30 bits. -/
theorem fold16DependsOnThirtyBits : Obligations.Fold16DependsOnThirtyBits := by
  intro bs heven
  obtain ⟨r, hr⟩ := exists_fold16 heven
  obtain ⟨t, ht, rfl⟩ := Option.map_eq_some_iff.1 hr
  have hsum : t.toNat ≡ foldWordSum bs [MOD 2 ^ 32] := by simpa using fold16From_toNat ht
  have hlow : t.toNat % 2 ^ 30 = foldWordSum bs % 2 ^ 30 := hsum.of_dvd (by decide)
  exact ⟨_, hr, by rw [fold16Final_toNat, hlow]⟩

/-- FOLD16 is equal where the weighted word sums agree modulo 2^30 (R126 (b)). -/
theorem fold16_congr {xs ys : List Byte} (hx : xs.length % 2 = 0) (hy : ys.length % 2 = 0)
    (h : foldWordSum xs ≡ foldWordSum ys [MOD 2 ^ 30]) : fold16 xs = fold16 ys := by
  obtain ⟨r, hr, hrsum⟩ := fold16DependsOnThirtyBits xs hx
  obtain ⟨q, hq, hqsum⟩ := fold16DependsOnThirtyBits ys hy
  rw [hr, hq, Option.some_inj, ← BitVec.toNat_inj, hrsum, hqsum, h]

/-- The words after it shift a word sum up by one place each (R126 (b)). -/
theorem foldWordSum_append {xs : List Byte} (hx : xs.length % 2 = 0) (ys : List Byte) :
    foldWordSum (xs ++ ys) = foldWordSum xs * 2 ^ (ys.length / 2) + foldWordSum ys := by
  fun_induction foldWordSum xs with
  | case1 lo hi rest ih =>
    have hrest : rest.length % 2 = 0 := (Nat.add_mod_right _ 2).symm.trans hx
    have hlen : (rest ++ ys).length / 2 = rest.length / 2 + ys.length / 2 := by rw [List.length_append]; omega
    rw [List.cons_append, List.cons_append, foldWordSum, ih hrest, hlen]
    ring
  | case2 xs hne =>
    match xs with
    | [] => simp
    | [_] => cases hx
    | lo :: hi :: rest => exact absurd rfl (hne lo hi rest)

/-- A word with 30 or more after it weighs a multiple of 2^30 (R126 (c)). -/
theorem foldWordSum_leadingWord (lo hi : Byte) {back : List Byte} (hlong : 60 ≤ back.length) :
    foldWordSum (lo :: hi :: back) ≡ foldWordSum back [MOD 2 ^ 30] := by
  have hweight : 2 ^ 30 ∣ 2 ^ (back.length / 2) := pow_dvd_pow 2 (by omega)
  have hzero := Nat.modEq_zero_iff_dvd.2 (hweight.mul_left (lo.toNat + 256 * hi.toNat))
  simpa only [foldWordSum, Nat.zero_add] using hzero.add_right (foldWordSum back)

/-- Settles O8: neither of the two words reaches the 30 bits of the word sum that FOLD16 reads. -/
theorem fold16LeadingWordsUnprotected : Obligations.Fold16LeadingWordsUnprotected := by
  intro lo lo' hi hi' front back hfront hback hlong
  refine fold16_congr (by simp; omega) (by simp; omega) ?_
  rw [foldWordSum_append hfront, foldWordSum_append hfront]
  exact ((foldWordSum_leadingWord lo hi hlong).trans (foldWordSum_leadingWord lo' hi' hlong).symm).add_left _

/-! ## CRC8 -/

theorem exists_crc8 {cat : Catalog} (ht : cat.crc8Table.length = 256) (bs : List Byte) : ∃ r, crc8 cat bs = some r :=
  Option.isSome_iff_exists.1 (crc8From_isSome ht cat.crc8Init bs)

theorem crc8From_cons (table : List Byte) (c b : Byte) (bs : List Byte) :
    crc8From table c (b :: bs) = table[(c ^^^ b).toNat]?.bind fun d => crc8From table d bs := by
  rw [crc8From]
  cases table[(c ^^^ b).toNat]? <;> rfl

/-- A byte enters CRC8 only by its difference from the register (R128). -/
theorem crc8From_cons_xor (table : List Byte) (c b : Byte) (bs : List Byte) :
    crc8From table c (b :: bs) = crc8From table (c ^^^ b) (0 :: bs) := by
  simp [crc8From_cons]

theorem crc8_append (cat : Catalog) (xs ys : List Byte) :
    crc8 cat (xs ++ ys) = (crc8 cat xs).bind fun c => crc8From cat.crc8Table c ys :=
  crc8From_append ..

/-- CRC8 of a frame is the table entry its last byte selects (R132). -/
theorem crc8_concat {cat : Catalog} {g : List Byte} {c : Byte} (h : crc8 cat g = some c) (x : Byte) :
    crc8 cat (g ++ [x]) = cat.crc8Table[(c ^^^ x).toNat]? := by
  rw [crc8_append, h, Option.bind_some, crc8From_cons]
  exact Option.bind_fun_some _

theorem tableEntry_inj {table : List Byte} (hlen : table.length = 256) (hnodup : table.Nodup) {i j : Byte} :
    table[i.toNat]? = table[j.toNat]? ↔ i = j :=
  (List.getElem?_inj (i.isLt.trans_eq hlen.symm) hnodup).trans BitVec.toNat_inj

/-- With a table of 256 distinct entries different register values stay different over any bytes (R128). -/
theorem crc8From_inj {table : List Byte} (hlen : table.length = 256) (hnodup : table.Nodup) {bs : List Byte} :
    ∀ {c d : Byte}, crc8From table c bs = crc8From table d bs → c = d := by
  induction bs with
  | nil => exact fun h => Option.some.inj h
  | cons b bs ih =>
    intro c d h
    have entry (i : Byte) : ∃ e, table[i.toNat]? = some e :=
      ⟨_, List.getElem?_eq_getElem (i.isLt.trans_eq hlen.symm)⟩
    obtain ⟨e, he⟩ := entry (c ^^^ b)
    obtain ⟨e', he'⟩ := entry (d ^^^ b)
    have hentry : e = e' := ih (by simpa only [crc8From_cons, he, he', Option.bind_some] using h)
    have hindex := (tableEntry_inj hlen hnodup).1 (he.trans (hentry ▸ he'.symm))
    exact (BitVec.xor_left_inj b).1 hindex

/-- Settles O13: ADD8 cancels the bytes around the changed one; CRC8's register differs after it and stays different. -/
theorem singleByteChangeIsDetected : Obligations.SingleByteChangeIsDetected := by
  intro cat front back x y hne
  refine ⟨fun h => hne ?_, fun hlen hnodup h => hne ?_⟩
  · simpa [add8_append, add8_cons] using h
  · obtain ⟨c, hc⟩ := exists_crc8 hlen front
    rw [crc8_append, crc8_append, hc, Option.bind_some, Option.bind_some, crc8From_cons_xor,
      crc8From_cons_xor _ _ y] at h
    exact (BitVec.xor_right_inj c).1 (crc8From_inj hlen hnodup h)

namespace Machine

/-! ## What the validators compare -/

theorem validAdd8_concat (g : List Byte) (c : Byte) : validAdd8 (g ++ [c]) = .next (decide (add8 g = c)) := by
  simp [validAdd8]

theorem validCrc8_concat {cat : Catalog} {g : List Byte} {r : Byte} (h : crc8 cat g = some r) (c : Byte) :
    validCrc8 cat (g ++ [c]) = .next (decide (r = c)) := by
  simp [validCrc8, h]

theorem validCrc8w_of_crc8 {cat : Catalog} {f : List Byte} {r : Byte} (h : crc8 cat f = some r) :
    validCrc8w cat f = .next (decide (r = cat.crc8Residue)) := by
  rw [validCrc8w, h]

theorem validFold16_append {g : List Byte} {r : Word} (h : fold16 g = some r) (lo hi : Byte) :
    validFold16 (g ++ [lo, hi]) = .next (decide (r = le16 lo hi)) := by
  have heven : g.length % 2 = 0 := by simpa [h] using (fold16_isSome g).symm
  simp [validFold16, heven, h, u16le]

/-- Settles O11: each checksum has a value on the covered bytes, and its validator compares that value. -/
theorem validatorsCompareTrailingField : Obligations.ValidatorsCompareTrailingField := by
  intro cat g ht
  obtain ⟨r, hr⟩ := exists_crc8 ht g
  refine ⟨fun c => ⟨validAdd8_concat g c, ⟨r, hr, validCrc8_concat hr c⟩, ?crc8w⟩, fun heven lo hi => ?fold16⟩
  case crc8w =>
    obtain ⟨w, hw⟩ := exists_crc8 ht (g ++ [c])
    exact ⟨w, hw, validCrc8w_of_crc8 hw⟩
  case fold16 =>
    obtain ⟨w, hw⟩ := exists_fold16 heven
    exact ⟨w, hw, validFold16_append hw lo hi⟩

/-- Settles O12: the sealing field is the one the validator asks for. -/
theorem sealedFramesAreAccepted : Obligations.SealedFramesAreAccepted := by
  intro cat kind g ht heven hres
  obtain ⟨field, hfield, hwidth⟩ := exists_sealField ht heven
  exact ⟨field, hfield, hwidth, (validate_append_iff hwidth).2 (fieldAccepted_of_sealField hres hfield)⟩

/-- With `T[0]` the residue, a frame that `VALID_CRC8` accepts has the residue as its CRC8 (R132 (a)). -/
theorem validCrc8w_of_validCrc8 {cat : Catalog} {g : List Byte} {x : Byte}
    (hres : cat.crc8Table[0]? = some cat.crc8Residue) (h : validCrc8 cat (g ++ [x]) = .next true) :
    validCrc8w cat (g ++ [x]) = .next true := by
  have hcrc := crc8_concat (validCrc8_append_iff.1 h) x
  rw [BitVec.xor_self] at hcrc
  exact validCrc8w_iff.2 (hcrc.trans hres)

/-- With a table without repeats and `T[0]` the residue, only the CRC8 of the bytes before leads to the residue
(R132 (b)). -/
theorem validCrc8w_eq_validCrc8 {cat : Catalog} (ht : cat.crc8Table.length = 256) (hnodup : cat.crc8Table.Nodup)
    (hres : cat.crc8Table[0]? = some cat.crc8Residue) (g : List Byte) (x : Byte) :
    validCrc8w cat (g ++ [x]) = validCrc8 cat (g ++ [x]) := by
  obtain ⟨c, hc⟩ := exists_crc8 ht g
  obtain ⟨r, hr⟩ := exists_crc8 ht (g ++ [x])
  have hiff : r = cat.crc8Residue ↔ c = x := by
    rw [← Option.some_inj, ← hr, ← hres, crc8_concat hc]
    exact (tableEntry_inj (j := 0#8) ht hnodup).trans BitVec.xor_eq_zero_iff
  rw [validCrc8w_of_crc8 hr, validCrc8_concat hc, decide_eq_decide.2 hiff]

/-- Settles O10: the last byte of a frame selects the table entry at its difference from the CRC8 before it. -/
theorem crc8WholeFrameRelation : Obligations.Crc8WholeFrameRelation := by
  refine ⟨fun cat g c x hc => crc8_concat hc x, fun cat f ht hres hf => ?_, rfl, rfl, by decide +kernel⟩
  obtain ⟨g, x, rfl⟩ := (List.eq_nil_or_concat' f).resolve_left hf
  exact ⟨validCrc8w_of_validCrc8 hres, fun hnodup => validCrc8w_eq_validCrc8 ht hnodup hres g x⟩

end Machine

end Sys2Proof
end

section
/-! SUPPORT. The framing statements (41_framing_fsm): each micro-operation's exact step from a good state (R151 to R163),
that a good state always steps (R257), frames fed whole and back to back (R168), and the soundness of emission (R169). -/

namespace Sys2Proof

/-- With a well-formed catalog a resolved length is in range (R159, W4). -/
theorem lengthOk_of_resolve {cat : Catalog} (h : cat.wf = true) {F : Family} (hF : F ∈ cat.families) {m0 m1 : Byte}
    {fid : FormatId} {len : Nat} (hr : cat.resolve F m0 m1 = .format fid len) : cat.lengthOk F len = true := by
  obtain ⟨hhdr, hbuf, -, -⟩ := wf_resolve h hF hr
  simp [Catalog.lengthOk, hhdr, hbuf]

/-- The pair a well-formed frame begins with selects the family whose header length the frame has (R17, R80). -/
theorem hdrLen_of_wf {cat : Catalog} {fid : FormatId} {f : Frame} {F : Family} {k : Nat} {rest : List Byte}
    (h : cat.wf = true) (hf : f.wf cat fid = true) (hF : cat.families[k]? = some F)
    (hbytes : f.bytes = F.sync0 :: F.sync1 :: rest) : f.hdrLen = F.hdrLen := by
  obtain ⟨j, G, -, -, hj, hhdr, -⟩ := frame_wf_iff.1 hf
  obtain ⟨h0, htail⟩ := List.cons.inj hbytes
  obtain ⟨h1, -⟩ := List.cons.inj htail
  rw [h0, h1, familyOf_index h hF] at hj
  cases hj
  exact hhdr

namespace Machine

/-! ## FEED_BYTE from a good state -/

/-- A good state's catalog is well-formed (R12). -/
theorem wf_of_inv {s : State} (hinv : s.inv = true) : s.cat.wf = true := (inv_iff.1 hinv).1

/-- I0 (R27). -/
theorem cnt_of_sync0 {s : State} (hinv : s.inv = true) (hs : s.st = .sync0) : s.cnt = 0 := by
  obtain ⟨-, -, -, -, hfr⟩ := inv_iff.1 hinv
  exact (framingOk_sync0 hs).1 hfr

/-- The step that takes a FEED_BYTE has that FEED_BYTE's outcome (R35). -/
theorem step_of_outcome {s t : State} {b : Byte} {ops : List Op} (hinv : s.inv = true)
    (hi : s.input = .feedByte b :: ops) (ho : FeedOutcome b (s.withInput ops) t) : step s = .next t :=
  (step_feed (wf_of_inv hinv) hi).trans ho.feedByte_eq

/-- A good state has room for a first sync byte and the byte after it (R257 (a)). -/
theorem bufSize_of_inFirst {s : State} {b : Byte} (hinv : s.inv = true) (hb : s.cat.inFirst b = true) :
    2 < s.cat.bufSize := by
  obtain ⟨hwf, hfit, -⟩ := inv_iff.1 hinv
  obtain ⟨F, hF⟩ := exists_family_of_inFirst hb
  exact two_lt_bufSize hwf hfit hF

/-- A candidate of one byte is read at offset 0 (R16). -/
theorem read_zero_of_candidate {s : State} {a : Byte} (hc : s.candidate = some [a]) :
    s.cnt = 1 ∧ s.read 0 = some a := by
  have hcnt : 1 = s.cnt := candidate_length hc
  exact ⟨hcnt.symm, (candidate_getElem hc (by omega)).symm⟩

/-- In a good HEADER state the byte has room in the buffer (R257 (a)). -/
theorem cnt_lt_bufSize_of_header {s : State} (hinv : s.inv = true) (hs : s.st = .header) : s.cnt < s.cat.bufSize := by
  obtain ⟨-, hfit, -, -, hfr⟩ := inv_iff.1 hinv
  obtain ⟨F, -, -, hF, hlt⟩ := (framingOk_header hs).1 hfr
  exact hlt.trans_le (headersFit_iff.1 hfit F (List.mem_of_getElem? hF))

/-- In a good ACCUM state the byte has room in the buffer and in the frame (R27, I3). -/
theorem cnt_lt_of_accum {s : State} (hinv : s.inv = true) (hs : s.st = .accum) :
    s.cnt < s.len ∧ s.cnt < s.cat.bufSize := by
  obtain ⟨-, -, -, -, hfr⟩ := inv_iff.1 hinv
  obtain ⟨-, -, -, -, -, -, -, hlt, hle, -⟩ := (framingOk_accum hs).1 hfr
  exact ⟨hlt, hlt.trans_le hle⟩

section
variable {s : State} {b m0 : Byte} {bs : List Byte} {F : Family}

/-- The last two bytes of the header that `b` completes: the candidate's and `b` (R157, R158). -/
theorem read_push_header (hc : s.candidate = some bs) (hl : s.cnt + 1 = F.hdrLen)
    (h0 : bs[F.hdrLen - 2]? = some m0) :
    (s.push b).read (F.hdrLen - 2) = some m0 ∧ (s.push b).read (F.hdrLen - 1) = some b := by
  have hlt : F.hdrLen - 2 < s.cnt := candidate_length hc ▸ (List.getElem?_eq_some_iff.1 h0).1
  constructor
  · rw [push_read, if_neg hlt.ne, ← candidate_getElem hc hlt, h0]
  · rw [push_read, if_pos (by omega)]

/-- The last byte of a header that resolves to a format sets `fmt` and `len` and begins ACCUM (R157, R158). -/
theorem feedOutcome_headerDone {fid : FormatId} {len : Nat} (hinv : s.inv = true) (hs : s.st = .header)
    (hF : s.cat.families[s.fam]? = some F) (hc : s.candidate = some bs) (hl : s.cnt + 1 = F.hdrLen)
    (h0 : bs[F.hdrLen - 2]? = some m0) (hr : s.cat.resolve F m0 b = .format fid len) :
    FeedOutcome b s { s.push b with fmt := fid, len := len, st := .accum, labels := [.headerDone] } := by
  obtain ⟨hr0, hr1⟩ := read_push_header (b := b) hc hl h0
  have hlen := lengthOk_of_resolve (wf_of_inv hinv) (List.mem_of_getElem? hF) hr
  exact .headerDone F m0 b fid len hs hF (cnt_lt_bufSize_of_header hinv hs) hl.ge hr0 hr1 hr hlen rfl

/-- The last byte of a header with an unknown model code is consumed by the discard (R157). -/
theorem feedOutcome_dropModel (hinv : s.inv = true) (hs : s.st = .header) (hF : s.cat.families[s.fam]? = some F)
    (hc : s.candidate = some bs) (hl : s.cnt + 1 = F.hdrLen) (h0 : bs[F.hdrLen - 2]? = some m0)
    (hr : s.cat.resolve F m0 b = .unknownModel) :
    FeedOutcome b s { s.push b with cnt := 0, st := .sync0, labels := [.drop .dropModel] } := by
  obtain ⟨hr0, hr1⟩ := read_push_header (b := b) hc hl h0
  exact .dropModel F m0 b hs hF (cnt_lt_bufSize_of_header hinv hs) hl.ge hr0 hr1 hr rfl

/-- The final byte of a good candidate is COMPLETE on the well-formed frame of candidate and byte (R161, R162). -/
theorem feedByte_accum_final (hinv : s.inv = true) (hs : s.st = .accum) (hlast : s.cnt + 1 = s.len)
    (hc : s.candidate = some bs) (b : Byte) :
    ∃ f, f.wf s.cat s.fmt = true ∧ f.bytes = bs ++ [b] ∧ feedByte b s = completeFrame s.fmt f (s.startStep.push b) := by
  obtain ⟨-, hroom⟩ := cnt_lt_of_accum hinv hs
  have happend : s.startStep.append b = some (s.startStep.push b) := append_of_lt hroom
  obtain ⟨f, hf, hbytes, hcomplete⟩ := microComplete_of_inv (s := s.startStep) ((startStep_inv s).trans hinv) hs hlast
    ((candidate_startStep s).trans hc) happend
  refine ⟨f, hf, hbytes, ?_⟩
  simp [feedByte_accum hs, microAccum, happend, hlast, hcomplete]

end

/-- The event of an accepted point-cloud frame is its batch (R38). -/
theorem handlerEvent_pc {cat : Catalog} {fid : FormatId} {f : Frame} {e : Event} {d : PcLayout}
    (hk : (cat.format fid).kind = .pc d) (he : handlerEvent cat fid f = some e) :
    ∃ batch, decodePoints cat fid d f.bytes = some batch ∧ e = .pointsOut batch := by
  simp only [handlerEvent, hk] at he
  obtain ⟨batch, hbatch, rfl⟩ := Option.map_eq_some_iff.1 he
  exact ⟨batch, hbatch, rfl⟩

/-- The event of an accepted info frame is its record (R38). -/
theorem handlerEvent_info {cat : Catalog} {fid : FormatId} {f : Frame} {e : Event}
    (hk : (cat.format fid).kind = .info) (he : handlerEvent cat fid f = some e) :
    ∃ record, decodeInfo fid f.hdrLen f.bytes = some record ∧ e = .infoOut record := by
  simp only [handlerEvent, hk] at he
  obtain ⟨record, hrecord, rfl⟩ := Option.map_eq_some_iff.1 he
  exact ⟨record, hrecord, rfl⟩

/-! ## Frames fed whole -/

/-- What every FEED_BYTE keeps holds at the end of FEED (R164). -/
theorem feed_preserves {P : State → Prop} (hP : ∀ {b s t}, P s → feedByte b s = .next t → P t) {xs : List Byte}
    {s t : State} (hs : P s) (h : feed xs s = .next t) : P t := by
  induction xs generalizing s with
  | nil => cases h; exact hs
  | cons x xs ih =>
    obtain ⟨u, hx, hxs⟩ := feed_cons_eq_next h
    exact ih (hP hs hx) hxs

theorem feed_inv {xs : List Byte} {s t : State} (hinv : s.inv = true) (h : feed xs s = .next t) : t.inv = true :=
  feed_preserves (P := fun u => u.inv = true) (fun hu hx => (feedByte_outcome hx).inv hu) hinv h

theorem feed_cat {xs : List Byte} {s t : State} (h : feed xs s = .next t) : t.cat = s.cat :=
  feed_preserves (P := fun u => u.cat = s.cat) (fun hu hx => (feedByte_outcome hx).cat.trans hu) rfl h

/-- Settles O35: the frame's bytes short of the last are buffered in silence, and the last runs COMPLETE on the frame. -/
theorem validFrameIsEmitted : Obligations.ValidFrameIsEmitted := by
  intro s fid f hinv hs ⟨hf, hv⟩
  obtain ⟨e, he⟩ := handlerEvent_of_wf (wf_of_inv hinv) hf
  refine ⟨?whole, fun k hk => ?proper⟩
  case whole =>
    obtain ⟨t, hfeed, hout, hst, hcnt⟩ := feed_frame_emitted hinv hs hf hv he
    exact ⟨t, e, hfeed, he, hout, hst, hcnt, feed_inv hinv hfeed⟩
  case proper =>
    obtain ⟨u, hfeed, hu⟩ := feed_take_frame hinv hs hf hk
    exact ⟨u, hfeed, hu.out⟩

/-- Settles O36: by induction on the frames; each leaves a good SYNC0 state for the next. -/
theorem backToBackFramesAreAllEmitted : Obligations.BackToBackFramesAreAllEmitted := by
  intro s frames hinv hs hvalid
  induction frames generalizing s with
  | nil => exact ⟨s, rfl, by simp [eventsOf], hs, cnt_of_sync0 hinv hs⟩
  | cons p ps ih =>
    obtain ⟨hp, hps⟩ := List.forall_mem_cons.1 hvalid
    obtain ⟨⟨u, e, hfeed, he, hout, hst, -, hu⟩, -⟩ := validFrameIsEmitted s p.1 p.2 hinv hs hp
    have hcat := feed_cat hfeed
    obtain ⟨t, hrest, hout', hend⟩ := ih u hu hst (hcat ▸ hps)
    refine ⟨t, ?_, ?_, hend⟩
    · rw [List.flatMap_cons, feed_append hfeed, hrest]
    · simp [hout', hout, hcat, eventsOf, he]

/-! ## Soundness of emission -/

/-- What FEED_BYTE emits is the candidate with the byte, a valid frame of the format in `fmt`, and its handler's event
(R162, R163, R169). -/
theorem feedByte_emits_valid {s t : State} {b : Byte} {bs : List Byte} (hinv : s.inv = true)
    (hc : s.candidate = some bs) (h : feedByte b s = .next t) :
    t.out = s.out ∨ ∃ f e, f.bytes = bs ++ [b] ∧ validFrame s.cat s.fmt f ∧ handlerEvent s.cat s.fmt f = some e ∧
      t.out = s.out ++ [.frameOut s.fmt f.bytes, e] := by
  cases feedByte_outcome h with
  | emit _ _ _ hs _ hl =>
    have hlt := (cnt_lt_of_accum hinv hs).1
    obtain ⟨f, hf, hbytes, hfeed⟩ := feedByte_accum_final hinv hs (by omega) hc b
    obtain ⟨e, hv, he, rfl⟩ | ⟨-, rfl⟩ := completeFrame_cases (hfeed.symm.trans h)
    · exact .inr ⟨f, e, hbytes, ⟨hf, hv⟩, he, rfl⟩
    · exact .inl rfl
  | _ => subst_vars; exact .inl rfl

/-- What is known of the state `t` after the bytes `xs` were fed to `s`: the candidate is the last of them, and every
frame emitted since is a contiguous part of them and valid (R165, R169). -/
structure FedFrom (s : State) (xs : List Byte) (t : State) : Prop where
  inv : t.inv = true
  cat : t.cat = s.cat
  candidate : ∃ bs, t.candidate = some bs ∧ bs <:+ xs
  events : ∃ es, t.out = s.out ++ es ∧ ∀ fid bytes, .frameOut fid bytes ∈ es →
    bytes <:+: xs ∧ ∃ f : Frame, f.bytes = bytes ∧ validFrame s.cat fid f

theorem FedFrom.feedByte {s t u : State} {xs : List Byte} {x : Byte} (h : FedFrom s xs t)
    (hx : feedByte x t = .next u) : FedFrom s (xs ++ [x]) u := by
  obtain ⟨bs, hc, hbs⟩ := h.candidate
  obtain ⟨es, hout, hes⟩ := h.events
  have ho := feedByte_outcome hx
  have hsuffix : bs ++ [x] <:+ xs ++ [x] := (List.suffix_append_inj_of_length_eq rfl).2 ⟨hbs, rfl⟩
  have old_valid : ∀ fid bytes, .frameOut fid bytes ∈ es →
      bytes <:+: xs ++ [x] ∧ ∃ f : Frame, f.bytes = bytes ∧ validFrame s.cat fid f := fun fid bytes hmem => by
    obtain ⟨hpart, hvalid⟩ := hes fid bytes hmem
    exact ⟨hpart.trans (List.prefix_append xs [x]).isInfix, hvalid⟩
  refine ⟨ho.inv h.inv, ho.cat.trans h.cat, ?candidate, ?events⟩
  case candidate =>
    obtain ⟨-, -, -, -, hfr⟩ := inv_iff.1 h.inv
    obtain hu | hu | hu := ho.candidate_cases hfr hc
    · exact ⟨_, hu, hsuffix⟩
    · exact ⟨_, hu, List.suffix_append xs [x]⟩
    · exact ⟨_, hu, List.nil_suffix⟩
  case events =>
    obtain hsame | ⟨f, e, hbytes, hvalid, he, hnew⟩ := feedByte_emits_valid h.inv hc hx
    · exact ⟨es, hsame.trans hout, old_valid⟩
    · refine ⟨es ++ [.frameOut t.fmt f.bytes, e], by rw [hnew, hout, List.append_assoc], fun fid bytes hmem => ?_⟩
      simp only [List.mem_append, List.mem_cons, List.not_mem_nil, or_false] at hmem
      obtain hold | hframe | hevent := hmem
      · exact old_valid fid bytes hold
      · cases hframe
        exact ⟨hbytes ▸ hsuffix.isInfix, f, rfl, h.cat ▸ hvalid⟩
      · exact absurd hevent.symm (handlerEvent_ne_frameOut he fid bytes)

theorem FedFrom.feed {s t u : State} {xs ys : List Byte} (h : FedFrom s xs t) (hfeed : feed ys t = .next u) :
    FedFrom s (xs ++ ys) u := by
  induction ys generalizing xs t with
  | nil => cases hfeed; rwa [List.append_nil]
  | cons y ys ih =>
    obtain ⟨v, hy, hys⟩ := feed_cons_eq_next hfeed
    rw [List.append_cons]
    exact ih (h.feedByte hy) hys

/-- Settles O37: the candidate is always the last bytes fed, and what is emitted is the candidate and valid. -/
theorem emittedFramesAreValidInput : Obligations.EmittedFramesAreValidInput := by
  intro s t xs es fid bytes hinv hs hfeed hout hmem
  have hstart : FedFrom s [] s :=
    ⟨hinv, rfl, ⟨[], candidate_of_zero (cnt_of_sync0 hinv hs), List.nil_suffix⟩, [], by simp, by simp⟩
  obtain ⟨es', hout', hvalid⟩ := (hstart.feed hfeed).events
  obtain rfl : es = es' := List.append_cancel_left (hout.symm.trans hout')
  exact hvalid fid bytes hmem

/-! ## SYNC0 and SYNC1 -/

/-- Settles O15: SYNC0's two outcomes. -/
theorem sync0BuffersFirstSyncByte : Obligations.Sync0BuffersFirstSyncByte := by
  intro s b ops hinv hs hi
  split
  · rename_i hb
    have hroom := bufSize_of_inFirst hinv hb
    exact ⟨_, step_of_outcome hinv hi (.sync0Hit hs hb (Nat.zero_lt_of_lt hroom) rfl), candidate_one s.buf rfl rfl, rfl⟩
  · rename_i hb
    exact step_of_outcome hinv hi (.sync0Skip hs (Bool.eq_false_of_not_eq_true hb) rfl)

/-- Settles O16: the buffered byte is the candidate's, so the pair selects its family. -/
theorem sync1PairSelectsFamily : Obligations.Sync1PairSelectsFamily := by
  intro s a b i F ops hinv hs hi hc hF
  obtain ⟨hcnt, hread⟩ := read_zero_of_candidate hc
  have hroom := bufSize_of_inFirst hinv (inFirst_of_familyOf hF)
  exact ⟨_, step_of_outcome hinv hi (.sync1Hit a i F hs hread hF (Nat.lt_of_succ_lt hroom) rfl),
    candidate_extended hc (by simp [hcnt]) (by simp [hcnt]), rfl⟩

/-- Settles O17: the two outcomes of the re-examination. -/
theorem sync1MismatchReexaminesByte : Obligations.Sync1MismatchReexaminesByte := by
  intro s a b ops hinv hs hi hc hF
  obtain ⟨-, hread⟩ := read_zero_of_candidate hc
  split
  · rename_i hb
    have hroom := bufSize_of_inFirst hinv hb
    exact ⟨_, step_of_outcome hinv hi (.sync1AgainHit a hs hread hF hb (Nat.zero_lt_of_lt hroom) rfl),
      candidate_one s.buf rfl rfl, rfl⟩
  · rename_i hb
    exact step_of_outcome hinv hi (.sync1AgainSkip a hs hread hF (Bool.eq_false_of_not_eq_true hb) rfl)

/-! ## HEADER -/

/-- Settles O18: a byte short of the header's end is appended. -/
theorem headerCollectsBytes : Obligations.HeaderCollectsBytes := by
  intro s b F bs ops hinv hs hi hF hc hl
  exact ⟨_, step_of_outcome hinv hi (.headerMore F hs hF (cnt_lt_bufSize_of_header (s := s) hinv hs) hl rfl),
    candidate_extended hc rfl rfl, rfl⟩

/-- Settles O19: a code in ENTRIES resolves to a point-cloud format, for with a well-formed catalog none lacks a length; any
other is unknown. -/
theorem modelCodeSelectsFormat : Obligations.ModelCodeSelectsFormat := by
  intro s m0 m1 F entries bs ops hinv hs hi hF hm hc hl h0
  have hinv' : (s.withInput ops).inv = true := (withInput_inv s ops).trans hinv
  have hc' : (s.withInput ops).candidate = some bs := (candidate_withInput s ops).trans hc
  cases hlookup : lookupModel m0 m1 entries with
  | none =>
    have hr : s.cat.resolve F m0 m1 = .unknownModel := (resolve_model_eq_unknownModel_iff hm).2 hlookup
    exact step_of_outcome hinv hi (feedOutcome_dropModel hinv' hs hF hc' hl h0 hr)
  | some fid =>
    cases hk : (s.cat.format fid).kind with
    | info =>
      have hr : s.cat.resolve F m0 m1 = .noLength := by simp [Catalog.resolve, hm, hlookup, hk]
      exact absurd hr (wf_resolve_ne_noLength (wf_of_inv hinv) (List.mem_of_getElem? hF))
    | pc d =>
      have hr : s.cat.resolve F m0 m1 = .format fid d.len := by simp [Catalog.resolve, hm, hlookup, hk]
      exact ⟨d, _, hk, step_of_outcome hinv hi (feedOutcome_headerDone hinv' hs hF hc' hl h0 hr),
        candidate_extended hc rfl rfl, rfl⟩

/-- Settles O20: every payload length resolves. -/
theorem payloadLengthSetsLength : Obligations.PayloadLengthSetsLength := by
  intro s n F fid overhead bs ops hinv hs hi hF hm hc hl
  have hhdr := wf_header (wf_of_inv hinv) (List.mem_of_getElem? hF)
  have hlen := candidate_length hc
  have h0 : bs[F.hdrLen - 2]? = some bs[F.hdrLen - 2] := List.getElem?_eq_getElem (by omega)
  have hr : s.cat.resolve F bs[F.hdrLen - 2] n = .format fid (n.toNat + overhead) := by simp [Catalog.resolve, hm]
  exact ⟨_, step_of_outcome hinv hi (feedOutcome_headerDone ((withInput_inv s ops).trans hinv) hs hF
    ((candidate_withInput s ops).trans hc) hl h0 hr), candidate_extended hc rfl rfl, rfl⟩

/-- Settles O21: the one outcome labelled DROP_LEN asks for a resolved length out of range, which a well-formed catalog does
not have. -/
theorem dropLenNeverFires : Obligations.DropLenNeverFires := by
  intro s t b ops hi h
  obtain ⟨hwf, -⟩ := step_cases h
  cases feedByte_outcome ((step_feed hwf hi).symm.trans h) with
  | dropLen F m0 m1 fid len _ hF _ _ _ _ hr hk =>
    have hok := lengthOk_of_resolve hwf (List.mem_of_getElem? hF) hr
    exact absurd (hok.symm.trans hk) (by decide)
  | _ => subst_vars; simp

/-! ## ACCUM and COMPLETE -/

/-- Settles O22: a byte short of the frame's end is appended. -/
theorem accumCollectsBytes : Obligations.AccumCollectsBytes := by
  intro s b bs ops hinv hs hi hc hl
  exact ⟨_, step_of_outcome hinv hi (.accumMore hs (cnt_lt_of_accum hinv hs).2 hl rfl), candidate_extended hc rfl rfl, rfl⟩

/-- Settles O38: by induction on the bytes; each is appended, and the invariant holds for the next. -/
theorem accumSwallowsAnyBytes : Obligations.AccumSwallowsAnyBytes := by
  intro s bs xs hinv hs hc hl
  induction xs generalizing s bs with
  | nil => exact ⟨s, rfl, hs, rfl, by simpa using hc, rfl, rfl, rfl, rfl⟩
  | cons x xs ih =>
    rw [List.length_cons] at hl
    have ho : FeedOutcome x s { s.push x with labels := [.accumMore] } :=
      .accumMore hs (cnt_lt_of_accum hinv hs).2 (by omega) rfl
    have hrest : s.cnt + 1 + xs.length < s.len := by omega
    obtain ⟨t, hfeed, hst, hcnt, hct, hkeeps⟩ := ih _ (bs ++ [x]) (ho.inv hinv) hs (candidate_extended hc rfl rfl) hrest
    have hcnt' : t.cnt = s.cnt + 1 + xs.length := hcnt
    exact ⟨t, (feed_cons_of_next ho.feedByte_eq).trans hfeed, hst, by rw [List.length_cons]; omega, by simpa using hct,
      hkeeps⟩

/-- Settles O23: the final byte is COMPLETE on a well-formed frame, on which validator and handler answer. -/
theorem finalByteValidatesFrame : Obligations.FinalByteValidatesFrame := by
  intro s b bs ops hinv hs hi hc hlast
  obtain ⟨hwf, -, -, -, hfr⟩ := inv_iff.1 hinv
  obtain ⟨F, rest, -, -, hc', hF, -⟩ := (framingOk_accum hs).1 hfr
  obtain rfl : bs = F.sync0 :: F.sync1 :: rest := Option.some.inj (hc.symm.trans hc')
  obtain ⟨f, hf, hbytes, hfeed⟩ := feedByte_accum_final (s := s.withInput ops) ((withInput_inv s ops).trans hinv) hs hlast
    ((candidate_withInput s ops).trans hc) b
  obtain ⟨ok, e, hv, he, hexec⟩ := inboundFormatsComplete (.ofFormat s.fmt f) s.fmt f
    ((s.withInput ops).startStep.push b) (inbound_ofFormat ..) hwf ((wf_ofFormat ..).trans hf)
  have hhdr : f.hdrLen = F.hdrLen := hdrLen_of_wf hwf hf hF hbytes
  have hstep := ((step_feed hwf hi).trans hfeed).trans ((exec_ofFormat ..).symm.trans hexec)
  rw [← hbytes]
  refine ⟨ok, e, F, _, hF, hv, fun d hk => handlerEvent_pc hk he, fun hk => hhdr ▸ handlerEvent_info hk he, hstep, ?_⟩
  cases ok with
  | true => exact ⟨rfl, rfl, candidate_emit .., rfl, rfl⟩
  | false => exact ⟨rfl, rfl, candidate_discard .., (List.append_nil _).symm, rfl⟩

/-- Settles O4: a well-formed frame is what its bytes decode to, and exec of it is COMPLETE. -/
theorem stepRunsDecodedFrame : Obligations.StepRunsDecodedFrame := by
  intro s b ops bs i hinv hs hlast hi hc hdecode
  obtain ⟨f, hf, hbytes, hfeed⟩ := feedByte_accum_final (s := s.withInput ops) ((withInput_inv s ops).trans hinv) hs hlast
    ((candidate_withInput s ops).trans hc) b
  obtain rfl : .ofFormat s.fmt f = i := by
    have hframe := decode_frame_append hf []
    rw [List.append_nil, hbytes] at hframe
    simpa using hframe.symm.trans hdecode
  calc step s = feedByte b (s.withInput ops) := step_feed (wf_of_inv hinv) hi
    _ = completeFrame s.fmt f ((s.withInput ops).startStep.push b) := hfeed
    _ = exec (.ofFormat s.fmt f) ((s.withInput ops).startStep.push b) := (exec_ofFormat ..).symm

/-- Settles O56: COMPLETE emits or discards, and neither writes more than `st`, `cnt`, the trace and the labels. -/
theorem inboundFormatsFrame : Obligations.InboundFormatsFrame := by
  intro i fid f s t hi h
  obtain rfl := ofFormat_of_inbound hi
  rw [exec_ofFormat] at h
  obtain ⟨e, -, -, rfl⟩ | ⟨-, rfl⟩ := completeFrame_cases h
  · exact ⟨rfl, rfl, rfl, rfl, rfl, rfl, fun _ => rfl, rfl, rfl, fun k => read_of_le k.zero_le, .inr ⟨e, rfl⟩⟩
  · exact ⟨rfl, rfl, rfl, rfl, rfl, rfl, fun _ => rfl, rfl, rfl, fun k => read_of_le k.zero_le, .inl rfl⟩

/-! ## Every operation -/

/-- Settles O26: an operation that can be issued runs in every good state. -/
theorem goodStateAlwaysSteps : Obligations.GoodStateAlwaysSteps := by
  intro s hinv hok
  obtain ⟨hwf, -⟩ := inv_iff.1 hinv
  cases hi : s.input with
  | nil => exact ⟨s, step_idle hwf hi⟩
  | cons op ops =>
    rw [step_op hwf hi]
    cases op with
    | reset => exact ⟨_, rfl⟩
    | feedByte b => exact feedByte_total ((withInput_inv s ops).trans hinv) b
    | sendCommand code payload =>
      have hpayload : payloadOk payload = true := by simpa [State.nextOpOk, hi, Op.ok] using hok
      exact ⟨_, if_pos hpayload⟩

/-- Settles O14: RESET assigns `st` and `cnt`, and with `cnt` 0 nothing is readable. -/
theorem resetReturnsToSync0 : Obligations.ResetReturnsToSync0 :=
  ⟨fun _ _ hwf hi => step_op hwf hi, fun _ => ⟨rfl, candidate_of_zero rfl, fun k => read_of_le k.zero_le⟩⟩

end Machine

end Sys2Proof
end

section
/-! SUPPORT. The outbound command frame (42_frame_formats): what CMD answers for a payload with a length byte and for one
without (R199, R271; log 12). -/

namespace Sys2Proof

@[simp] theorem commandFrame_length (cat : Catalog) (code : Byte) (payload : List Byte) :
    (commandFrame cat code payload).length = payload.length + 5 := by
  simp [commandFrame]

namespace Machine

variable {code : Byte} {payload : List Byte} {s : State}

/-- A payload with a length byte: the frame is kept, and no other field is written (R199, R271). -/
theorem exec_cmd_of_length_le (h : payload.length ≤ 255) :
    exec (.cmd code payload) s = .next { s with commands := s.commands ++ [commandFrame s.cat code payload] } :=
  if_pos (decide_eq_true h)

/-- A payload without a length byte is refused (log 12). -/
theorem exec_cmd_of_length_gt (h : 255 < payload.length) : exec (.cmd code payload) s = .refused .payloadTooLong :=
  if_neg fun hok => h.not_ge (of_decide_eq_true hok)

/-- Settles O57: CMD branches on the payload's length byte, and `commandFrame` is the bytes before the checksum sealed by
their ADD8. -/
theorem commandFrameIsBuilt : Obligations.CommandFrameIsBuilt := by
  intro code payload s
  refine ⟨fun hle => ?built, exec_cmd_of_length_gt⟩
  exact ⟨_, rfl, commandFrame_length s.cat code payload, exec_cmd_of_length_le hle⟩

end Machine

end Sys2Proof
end

section
/-! SUPPORT. The point decoding statements (43_point_decode): fmod360 as 360 times a fractional part (R229), the angles of
a packet (R225 to R230), and the raw field each point of a decoded batch comes from (R221, R226, R233, R234). -/

namespace Sys2Proof.Machine

/-! ## fmod360 -/

theorem fmod360_eq_sub_floor (x : Rat) : fmod360 x = x - 360 * (⌊x / 360⌋ : Rat) := rfl

/-- The floored modulus is the fractional part of the number of turns, in degrees (R229). -/
theorem fmod360_eq_fract (x : Rat) : fmod360 x = 360 * Int.fract (x / 360) := by
  rw [fmod360_eq_sub_floor, ← Int.self_sub_floor]
  ring

theorem fmod360_nonneg (x : Rat) : 0 ≤ fmod360 x := by
  rw [fmod360_eq_fract]
  have := Int.fract_nonneg (x / 360)
  positivity

theorem fmod360_lt (x : Rat) : fmod360 x < 360 := by
  rw [fmod360_eq_fract]
  linarith [Int.fract_lt_one (x / 360)]

/-- A whole turn changes nothing (R229). -/
theorem fmod360_add_turn (x : Rat) : fmod360 (x + 360) = fmod360 x := by
  have hturn : (x + 360) / 360 = x / 360 + 1 := by ring
  rw [fmod360_eq_fract, fmod360_eq_fract, hturn, Int.fract_add_one]

/-- Settles O44: fmod360 is 360 times a fractional part. -/
theorem fmod360IsFlooredModulus : Obligations.Fmod360IsFlooredModulus :=
  ⟨fun x => ⟨fmod360_nonneg x, fmod360_lt x, fmod360_eq_sub_floor x⟩, by decide +kernel⟩

/-! ## The angles of a packet -/

section
variable {d : PcLayout} {first last : Int}

theorem angleDiffer_of_le_one (hn : d.n ≤ 1) : angleDiffer d first last = 0 := if_pos hn

theorem angleDiffer_of_two_le (hn : 2 ≤ d.n) :
    angleDiffer d first last = (angleSpan d first last : Rat) / ((d.n : Rat) - 1) / (d.u : Rat) := if_neg (by omega)

/-- Where the step or the index is 0 the point is at `first_angle/U` (R228). -/
theorem pointAngle_of_mul_eq_zero {j : Nat} (h : angleDiffer d first last * (j : Rat) = 0) :
    pointAngle d first last j = fmod360 ((first : Rat) / d.u) := by
  rw [pointAngle, h, add_zero]

/-- The integer form of R228. -/
theorem pointAngle_eq_integerForm (hu : 0 < d.u) (hn : 2 ≤ d.n) (j : Nat) :
    pointAngle d first last j =
      fmod360 (((first : Rat) * (d.n - 1) + angleSpan d first last * j) / ((d.n - 1) * d.u)) := by
  have hu' : (d.u : Rat) ≠ 0 := Nat.cast_ne_zero.2 hu.ne'
  have hn' : (d.n : Rat) - 1 ≠ 0 := sub_ne_zero.2 (Nat.cast_ne_one.2 (by omega))
  rw [pointAngle, angleDiffer_of_two_le hn]
  congr 1
  field_simp

/-- `span` leads from the first angle to the last, or to a whole turn past it (R225). -/
theorem first_add_angleSpan (d : PcLayout) (first last : Int) :
    first + angleSpan d first last = last ∨ first + angleSpan d first last = last + 360 * d.u := by
  unfold angleSpan
  split_ifs <;> omega

/-- `span` from `first_angle` ends at `last_angle/U`, up to a whole turn (R225, R228). -/
theorem fmod360_first_add_angleSpan (hu : 0 < d.u) :
    fmod360 (((first + angleSpan d first last : Int) : Rat) / d.u) = fmod360 ((last : Rat) / d.u) := by
  rcases first_add_angleSpan d first last with h | h
  · rw [h]
  · have hu' : (d.u : Rat) ≠ 0 := Nat.cast_ne_zero.2 hu.ne'
    have hturn : ((last + 360 * d.u : Int) : Rat) / d.u = (last : Rat) / d.u + 360 := by
      push_cast
      field_simp
    rw [h, hturn, fmod360_add_turn]

/-- The last point is at `last_angle/U` modulo 360 (R228). -/
theorem pointAngle_last (hu : 0 < d.u) (hn : 2 ≤ d.n) :
    pointAngle d first last (d.n - 1) = fmod360 ((last : Rat) / d.u) := by
  have hu' : (d.u : Rat) ≠ 0 := Nat.cast_ne_zero.2 hu.ne'
  have hn' : (d.n : Rat) - 1 ≠ 0 := sub_ne_zero.2 (Nat.cast_ne_one.2 (by omega))
  rw [pointAngle_eq_integerForm hu hn, ← fmod360_first_add_angleSpan hu, Nat.cast_sub (by omega)]
  congr 1
  push_cast
  field_simp

end

/-- Settles O45: with one point the step is 0, and with more the integer form ends at `first_angle + span`. -/
theorem anglesRunFromFirstToLast : Obligations.AnglesRunFromFirstToLast := by
  intro d first last hu
  refine ⟨fun hn => ⟨angleDiffer_of_le_one hn, fun j => ?onePoint⟩, fun hn => ⟨?firstPoint, pointAngle_last hu hn,
    pointAngle_eq_integerForm hu hn⟩⟩
  case onePoint => exact pointAngle_of_mul_eq_zero (by rw [angleDiffer_of_le_one hn, zero_mul])
  case firstPoint => exact pointAngle_of_mul_eq_zero (by rw [Nat.cast_zero, mul_zero])

/-! ## The raw fields behind a batch -/

section
variable {cat : Catalog} {fid : FormatId} {d : PcLayout} {f : List Byte} {batch : Batch} {x : PcFields}

theorem decodePoints_eq_some_iff :
    decodePoints cat fid d f = some batch ↔ ∃ x, pcFields d f = some x ∧ batchOf cat.round fid d x = batch :=
  Option.map_eq_some_iff

theorem pointsFrom_of_pcFields (h : pcFields d f = some x) : pointsFrom d f 0 d.n = some x.points := by
  unfold pcFields at h
  split at h
  · cases h
    assumption
  · cases h

/-- Every raw point is read at some point's offset (R221). -/
theorem exists_pointAt_of_pointsFrom {k : Nat} {raw : Word × Word} : ∀ {j : Nat} {pts : List (Word × Word)},
    pointsFrom d f j k = some pts → raw ∈ pts → ∃ i, pointAt d f i = some raw := by
  induction k with
  | zero => intro j pts h hraw; cases h; cases hraw
  | succ k ih =>
    intro j pts h hraw
    unfold pointsFrom at h
    split at h
    · rename_i hpt hpts
      cases h
      rcases List.mem_cons.1 hraw with rfl | hraw
      · exact ⟨j, hpt⟩
      · exact ih hpts hraw
    · cases h

theorem qualityAt_of_pointAt {j : Nat} {raw : Word × Word} (h : pointAt d f j = some raw) :
    qualityAt d.qkind f (d.ptsOff + j * d.p) = some raw.2 := by
  unfold pointAt at h
  split at h
  · cases h
    assumption
  · cases h

/-- A quality that a format does not carry reads as 0 (R221). -/
theorem qualityAt_none {o : Nat} {w : Word} (h : qualityAt .none f o = some w) : w = 0 := (Option.some.inj h).symm

/-- A one-byte quality is a byte (R221). -/
theorem qualityAt_u8_le {o : Nat} {w : Word} (h : qualityAt .u8 f o = some w) : w.toNat ≤ 255 := by
  obtain ⟨b, -, rfl⟩ := Option.map_eq_some_iff.1 h
  have := b.isLt
  simp only [BitVec.toNat_setWidth]
  omega

/-- The raw quality is 0 or a byte where the format says so (R221, R233). -/
theorem quality_range_of_pcFields (h : pcFields d f = some x) {raw : Word × Word} (hraw : raw ∈ x.points) :
    (d.qkind = .none → raw.2 = 0) ∧ (d.qkind = .u8 → raw.2.toNat ≤ 255) := by
  obtain ⟨i, hi⟩ := exists_pointAt_of_pointsFrom (pointsFrom_of_pcFields h) hraw
  have hq := qualityAt_of_pointAt hi
  exact ⟨fun hk => qualityAt_none (hk ▸ hq), fun hk => qualityAt_u8_le (hk ▸ hq)⟩

theorem batchOf_points_length (r : Rounding) (h : pcFields d f = some x) : (batchOf r fid d x).points.length = d.n :=
  decodePointList_length.trans (pointsFrom_length (pointsFrom_of_pcFields h))

/-- Point `j` of a batch is decoded from raw point `j`, with the packet's angles and speed (R222, R234). -/
theorem batchOf_points_getElem? {r : Rounding} {j : Nat} {p : Point} (h : (batchOf r fid d x).points[j]? = some p) :
    ∃ raw, x.points[j]? = some raw ∧
      p = decodePoint r d (batchOf r fid d x).speedRpm (angleCount d x.rawFirst) (angleCount d x.rawLast) j raw := by
  rw [batchOf, decodePointList_getElem?, Option.map_eq_some_iff] at h
  obtain ⟨raw, hraw, rfl⟩ := h
  exact ⟨raw, hraw, by rw [Nat.zero_add]; rfl⟩

end

theorem distanceMm_le (w : Word) : distanceMm w ≤ 32767 := by
  rw [distanceMm_eq]
  split_ifs <;> omega

/-- Settles O43: every point of a batch is decoded from a raw point. -/
theorem distanceSentinelDecodesToZero : Obligations.DistanceSentinelDecodesToZero := by
  refine ⟨fun cat fid d f batch p h hp => ?_, by decide⟩
  obtain ⟨x, -, rfl⟩ := decodePoints_eq_some_iff.1 h
  obtain ⟨j, hj⟩ := List.mem_iff_getElem?.1 hp
  obtain ⟨raw, -, rfl⟩ := batchOf_points_getElem? hj
  exact ⟨distanceMm_eq raw.1, distanceMm_le raw.1⟩

/-! ## The ranges of a batch -/

/-- A raw angle less the bias of `CAT_DEFAULT` (R224, R233). -/
theorem angleCount_range {d : PcLayout} (hbias : d.bias = 0xA000) (w : Word) :
    -40960 ≤ angleCount d w ∧ angleCount d w ≤ 24575 := by
  have := w.isLt
  rw [angleCount_of_bias hbias]
  omega

/-- `span` is negative where the last angle is more than a whole turn below the first (R225, log 24). -/
theorem angleSpan_neg_iff (d : PcLayout) (first last : Int) :
    angleSpan d first last < 0 ↔ last + 360 * d.u < first := by
  unfold angleSpan
  split_ifs <;> omega

/-- Two raw angles are at most 65535 apart, and `span` adds at most a turn (R225, R233). -/
theorem angleSpan_angleCount_le (d : PcLayout) (first last : Word) :
    angleSpan d (angleCount d first) (angleCount d last) ≤ 65535 + 360 * d.u := by
  have := last.isLt
  rw [angleSpan_angleCount]
  split_ifs <;> omega

/-- Settles O46: a batch has its fields from `batchOf`, and each point from `decodePoint` of its raw fields. -/
theorem batchIsInRange : Obligations.BatchIsInRange := by
  intro cat fid d f batch hround hbias h
  obtain ⟨x, hx, rfl⟩ := decodePoints_eq_some_iff.1 h
  obtain ⟨hfirst, hfirst'⟩ := angleCount_range hbias x.rawFirst
  obtain ⟨hlast, hlast'⟩ := angleCount_range hbias x.rawLast
  refine ⟨rfl, batchOf_points_length _ hx, hfirst, hfirst', hlast, hlast', angleSpan_neg_iff d _ _,
    angleSpan_angleCount_le d x.rawFirst x.rawLast, fun j p hp => ?_⟩
  obtain ⟨raw, hraw, rfl⟩ := batchOf_points_getElem? hp
  obtain ⟨hnone, hu8⟩ := quality_range_of_pcFields hx (List.mem_of_getElem? hraw)
  rw [hround]
  exact ⟨rfl, rfl, rfl, fmod360_nonneg _, fmod360_lt _, distanceMm_le raw.1, hnone, hu8⟩

end Sys2Proof.Machine
end

section
/-! SUPPORT. The statements of the silent discard and the ghost labels (60_exceptions): no operation reads a label, each
FEED_BYTE carries the labels of its outcome, and a discard is silent (R167, R251 to R255). -/

namespace Sys2Proof.Machine

/-! ## The labels are read by nothing -/

/-- FEED_BYTE begins by emptying the labels, so it is the same step whatever they were (R251). -/
theorem feedByte_withLabels (b : Byte) (s : State) (ls : List Label) :
    feedByte b { s with labels := ls } = feedByte b s := rfl

/-- An operation run under other labels leads to a state that differs, if at all, in its labels (R251). -/
theorem runOp_withLabels {op : Op} {s t : State} (h : runOp op s = .next t) (ls : List Label) :
    ∃ t', runOp op { s with labels := ls } = .next t' ∧ t'.startStep = t.startStep := by
  cases op with
  | reset => cases h; exact ⟨_, rfl, rfl⟩
  | feedByte b => exact ⟨t, (feedByte_withLabels b s ls).trans h, rfl⟩
  | sendCommand code payload =>
    obtain hle | hgt := le_or_gt payload.length 255
    · cases (exec_cmd_of_length_le hle).symm.trans h
      exact ⟨_, exec_cmd_of_length_le hle, rfl⟩
    · cases (exec_cmd_of_length_gt hgt).symm.trans h

/-- Settles O29: a step holds the state or runs an operation, and neither reads a label. -/
theorem ghostLabelsAreUnobservable : Obligations.GhostLabelsAreUnobservable := by
  intro s t ls h
  obtain ⟨hwf, ⟨hi, rfl⟩ | ⟨op, ops, hi, hrun⟩⟩ := step_cases h
  · exact ⟨_, step_idle hwf hi, rfl⟩
  · obtain ⟨t', hrun', hsame⟩ := runOp_withLabels hrun ls
    exact ⟨t', (step_op (s := { s with labels := ls }) hwf hi).trans hrun', hsame⟩

/-! ## The labels of a FEED_BYTE -/

/-- A step that takes a FEED_BYTE, from a good state or not, has one of that FEED_BYTE's outcomes (R35). -/
theorem feedOutcome_of_step {b : Byte} {ops : List Op} {s t : State} (hi : s.input = .feedByte b :: ops)
    (h : step s = .next t) : FeedOutcome b (s.withInput ops) t := by
  obtain ⟨hwf, -⟩ := step_cases h
  exact feedByte_outcome ((step_feed hwf hi).symm.trans h)

/-- Only the discard of SYNC1, whose byte is examined again, carries a second label (R155, R251). -/
theorem FeedOutcome.labels_cases {b : Byte} {s t : State} (h : FeedOutcome b s t) :
    (∃ l, t.labels = [l] ∧ l ≠ .drop .dropSync1) ∨
      t.labels = [.drop .dropSync1, .sync0Skip] ∨ t.labels = [.drop .dropSync1, .sync0Hit] := by
  cases h with
  | sync1AgainSkip => subst_vars; exact .inr (.inl rfl)
  | sync1AgainHit => subst_vars; exact .inr (.inr rfl)
  | _ => subst_vars; exact .inl ⟨_, rfl, by decide⟩

/-- The outcome that writes the trace is the one labelled EMIT (R163, R255). -/
theorem FeedOutcome.out_ne_iff_emit_mem {b : Byte} {s t : State} (h : FeedOutcome b s t) :
    t.out ≠ s.out ↔ Label.emit ∈ t.labels := by
  cases h with
  | emit _ f e _ _ _ _ _ _ _ ht =>
    subst ht
    have hgrows : s.out ++ [.frameOut s.fmt f.bytes, e] ≠ s.out := by simp
    exact ⟨fun _ => List.mem_cons_self, fun _ => hgrows⟩
  | _ =>
    subst_vars
    exact ⟨fun hne => absurd rfl hne, fun hmem => absurd hmem (by simp)⟩

/-- Settles O30: the step has an outcome of FEED_BYTE, and each outcome carries its labels. -/
theorem eachStepCarriesItsLabels : Obligations.EachStepCarriesItsLabels := by
  intro s t b ops hi h
  have ho := feedOutcome_of_step hi h
  exact ⟨ho.labels_cases, ho.out_ne_iff_emit_mem⟩

/-! ## The silent discard -/

/-- A discard emits nothing and ends in SYNC0 with nothing buffered; only that of SYNC1 may go on, by re-examination, to
SYNC1 with the byte alone (R155, R252, R253). -/
theorem FeedOutcome.of_discard {b : Byte} {c : Cause} {s t : State} (h : FeedOutcome b s t)
    (hdrop : Label.drop c ∈ t.labels) :
    t.out = s.out ∧ ((t.st = .sync0 ∧ t.cnt = 0) ∨
      (c = .dropSync1 ∧ t.st = .sync1 ∧ t.cnt = 1 ∧ t.candidate = some [b] ∧ s.cat.inFirst b = true)) := by
  cases h with
  | sync1AgainHit _ hs _ _ hb _ ht =>
    subst ht
    obtain rfl : c = .dropSync1 := by simpa using hdrop
    exact ⟨rfl, .inr ⟨rfl, hs, rfl, candidate_one s.buf rfl rfl, hb⟩⟩
  | sync1AgainSkip | dropModel | dropLen | dropCksum => subst_vars; exact ⟨rfl, .inl ⟨rfl, rfl⟩⟩
  | _ => subst_vars; simp at hdrop

/-- Settles O33: the step has an outcome of FEED_BYTE, and each that is labelled with a cause is such a discard. -/
theorem discardIsSilent : Obligations.DiscardIsSilent :=
  fun _ _ _ _ _ hi h hdrop => (feedOutcome_of_step hi h).of_discard hdrop

end Sys2Proof.Machine
end

section
/-! SUPPORT. The statement of the stuttered sync pair (70_reset_and_hazards): a first sync byte repeated is dropped once and
held again, so the pair still opens at the last repetition (R153 to R155, R293). -/

namespace Sys2Proof.Machine

/-- A good SYNC1 state `s` that holds the first sync byte `a` alone, with nothing emitted since the state `o` (R27, I1). -/
structure FirstSyncHeld (o : State) (a : Byte) (s : State) : Prop where
  inv : s.inv = true
  stage : s.st = .sync1
  candidate : s.candidate = some [a]
  cat : s.cat = o.cat
  out : s.out = o.out

section
variable {o s : State} {a b : Byte}

/-- A first sync byte met in SYNC0 is held (R153). -/
theorem feedByte_holds_first_sync (hinv : s.inv = true) (hs : s.st = .sync0) (ha : s.cat.inFirst a = true) :
    ∃ t, feedByte a s = .next t ∧ FirstSyncHeld s a t := by
  have hroom := bufSize_of_inFirst hinv ha
  have ho := FeedOutcome.sync0Hit hs ha (Nat.zero_lt_of_lt hroom) rfl
  exact ⟨_, ho.feedByte_eq, ho.inv hinv, rfl, candidate_one s.buf rfl rfl, rfl, rfl⟩

/-- A first sync byte that completes no pair with the one held is held in its place (R155). -/
theorem FirstSyncHeld.feedByte_again (h : FirstSyncHeld o a s) (hpair : s.cat.familyOf a b = none)
    (hb : s.cat.inFirst b = true) : ∃ t, feedByte b s = .next t ∧ FirstSyncHeld o b t := by
  obtain ⟨-, hread⟩ := read_zero_of_candidate h.candidate
  have hroom := bufSize_of_inFirst h.inv hb
  have ho := FeedOutcome.sync1AgainHit a h.stage hread hpair hb (Nat.zero_lt_of_lt hroom) rfl
  exact ⟨_, ho.feedByte_eq, ho.inv h.inv, h.stage, candidate_one s.buf rfl rfl, h.cat, h.out⟩

/-- The byte that completes a pair with the one held opens the header of the pair's family (R154). -/
theorem FirstSyncHeld.feedByte_pair {i : Nat} {F : Family} (h : FirstSyncHeld o a s)
    (hpair : s.cat.familyOf a b = some (i, F)) :
    ∃ t, feedByte b s = .next t ∧ t.st = .header ∧ t.cnt = 2 ∧ t.candidate = some [a, b] ∧ t.fam = i ∧
      t.cat = o.cat ∧ t.out = o.out := by
  obtain ⟨hcnt, hread⟩ := read_zero_of_candidate h.candidate
  have hroom := bufSize_of_inFirst h.inv (inFirst_of_familyOf hpair)
  have ho := FeedOutcome.sync1Hit a i F h.stage hread hpair (Nat.lt_of_succ_lt hroom) rfl
  exact ⟨_, ho.feedByte_eq, rfl, rfl, candidate_extended h.candidate (by simp [hcnt]) (by simp [hcnt]), rfl, h.cat, h.out⟩

end

/-- Settles O39: the first byte is held, its repetition is held in its place, and the second sync byte completes the
pair. -/
theorem stutteredSyncIsFramed : Obligations.StutteredSyncIsFramed := by
  intro s F hinv hs hF hnone
  have hfirst := inFirst_of_mem hF
  obtain ⟨i, hi⟩ := List.mem_iff_getElem?.1 hF
  have hpair := familyOf_index (wf_of_inv hinv) hi
  obtain ⟨u, hu, heldU⟩ := feedByte_holds_first_sync hinv hs hfirst
  rw [← heldU.cat] at hnone hfirst
  obtain ⟨v, hv, heldV⟩ := heldU.feedByte_again hnone hfirst
  rw [← heldV.cat] at hpair
  obtain ⟨t, ht, hst, hcnt, hcand, rfl, hcat, hout⟩ := heldV.feedByte_pair hpair
  have hfeed : feed [F.sync0, F.sync0, F.sync1] s = .next t := by
    rw [feed_cons_of_next hu, feed_cons_of_next hv, feed_cons_of_next ht, feed]
  exact ⟨t, hfeed, hst, hcnt, hcand, hcat ▸ hi, hout⟩

end Sys2Proof.Machine
end
